-- ==== Sys2Proof/Word.lean ====
section
/-! DEFINITION. The fixed-size values of the block (`00_scope.md` rules R6, R11): a byte, a 16-byte block, a
12-byte nonce, a 64-bit command or response word, and a cipher key of 16 or 32 bytes.

A fixed-size byte sequence is a bit vector whose FIRST byte is the MOST significant one, so that a hex literal
reads as the spec prints it, bytes first to last (rule R11). The conversions to and from lists of bytes stand in
`Machine/Bytes.lean`. -/

namespace Sys2Proof

/-- A byte: 8 bits, bit 7 the most significant (rule R11). -/
abbrev Byte := BitVec 8

/-- A block: a byte sequence of length 16 (rules R6, R11). -/
abbrev Block := BitVec 128

/-- A nonce: exactly 12 bytes (rule R6). -/
abbrev Nonce := BitVec 96

/-- A command word or a response word: 64 bits, bit 63 the most significant (rules R71, R72). -/
abbrev Word64 := BitVec 64

/-- The set `Key = bytes[16] ∪ bytes[32]` of rule R7: no key of another length exists. -/
inductive Key where
  /-- a 16-byte key -/
  | k16 (k : BitVec 128)
  /-- a 32-byte key -/
  | k32 (k : BitVec 256)
deriving DecidableEq, Repr

end Sys2Proof
end

