-- ==== Sys2Proof/Syntax.lean ====
section
/-! DEFINITION. The 17 commands of the opcode map (`30_encoding.md` rule R76), one constructor each, with the
argument fields of rules R74 and R75. Lengths and counts are natural numbers (rule R13); `WellFormed.lean` says
which of them fit their fields. The payload is no part of a command word (rule R70): a command reads it from the
payload port. -/

namespace Sys2Proof

/-- A command, without its payload (rules R70, R76). -/
inductive Instr where
  /-- `INIT`: `ENC`, `KLEN`, `NLEN`, `ALEN` (rule R74). -/
  | init (enc : Bool) (klen nlen alen : Nat)
  /-- `AAD`: `LEN` bytes of associated data follow (rule R75). -/
  | aad (len : Nat)
  /-- `MSG`: `LEN` bytes of message follow (rule R75). -/
  | msg (len : Nat)
  /-- `OSIZE`: `pendingLen` (rule R75). -/
  | osize (pendingLen : Nat)
  /-- `FINAL`: `OCAP`, the room the host has for output (rule R75). -/
  | final (ocap : Nat)
  /-- `RESET`: no argument (rule R75). -/
  | reset
  /-- `PV.SEED`: a 16-byte key follows. -/
  | pvSeed
  /-- `PV.CLR`: no operand. -/
  | pvClr
  /-- `PV.BLK`: one 16-byte block follows. -/
  | pvBlk
  /-- `PV.SEQ`: `LEN` bytes follow. -/
  | pvSeq (len : Nat)
  /-- `PV.LEN`: two 8-byte counts follow. -/
  | pvLen
  /-- `PV.OUT`: no operand. -/
  | pvOut
  /-- `KS.KEY`: `KLEN` bytes of key follow. -/
  | ksKey (klen : Nat)
  /-- `KS.LOAD`: a 16-byte tag follows. -/
  | ksLoad
  /-- `KS.RUN`: `LEN` bytes of input follow. -/
  | ksRun (len : Nat)
  /-- `KS.CTR`: no operand. -/
  | ksCtr
  /-- `TC.CMP`: two 16-byte tags follow. -/
  | tcCmp
deriving DecidableEq, Repr

end Sys2Proof
end

