-- ==== Sys2Proof/WellFormed.lean ====
section
/-! DEFINITION. Which commands a command word can carry: every argument fits the field rules R71, R74 and R75
give it. -/

namespace Sys2Proof

/-- Every argument of the command fits its field: `KLEN` and `NLEN` 8 bits, `ALEN` 32 bits (rule R74); every other
argument the 56 bits of `ARG` (rules R71, R75). -/
def Instr.wellFormed : Instr → Bool
  | .init _ klen nlen alen => decide (klen < 2 ^ 8) && decide (nlen < 2 ^ 8) && decide (alen < 2 ^ 32)
  | .aad len => decide (len < 2 ^ 56)
  | .msg len => decide (len < 2 ^ 56)
  | .osize pendingLen => decide (pendingLen < 2 ^ 56)
  | .final ocap => decide (ocap < 2 ^ 56)
  | .reset => true
  | .pvSeed => true
  | .pvClr => true
  | .pvBlk => true
  | .pvSeq len => decide (len < 2 ^ 56)
  | .pvLen => true
  | .pvOut => true
  | .ksKey klen => decide (klen < 2 ^ 56)
  | .ksLoad => true
  | .ksRun len => decide (len < 2 ^ 56)
  | .ksCtr => true
  | .tcCmp => true

end Sys2Proof
end

