-- ==== Sys2Proof/Decode.lean ====
section
/-! DEFINITION. The opcode map (`30_encoding.md` rules R71, R74 to R78), the decoder, total on every 64-bit word,
the encoder, and the payload length of a command (rule R73). -/

namespace Sys2Proof

/-- `OPC = CW[63:56]` (rule R71). -/
def opcOf (w : Word64) : BitVec 8 := w.extractLsb' 56 8

/-- `ARG = CW[55:0]` (rule R71). -/
def argOf (w : Word64) : BitVec 56 := w.extractLsb' 0 56

/-- Why a word is no command; rules R77 and R78 treat both alike. -/
inductive DecodeError where
  /-- an opcode the map does not list (rule R77) -/
  | reservedOpcode (opc : BitVec 8)
  /-- a listed opcode with a nonzero reserved argument bit (rule R78) -/
  | reservedArgument (opc : BitVec 8) (arg : BitVec 56)
deriving DecidableEq, Repr

/-- One row of the opcode map: a word `w` selects it when `w & mask = match` (rule R76). -/
structure OpRow where
  /-- the row's `match` -/
  pattern : Word64
  /-- the row's `mask` -/
  mask : Word64
  /-- the command, from the word's `ARG` (rules R74, R75) -/
  build : BitVec 56 → Instr

/-- The command `INIT` of an argument: the fields of rule R74. -/
def initOfArg (arg : BitVec 56) : Instr :=
  .init (arg.getLsbD 0) (arg.extractLsb' 8 8).toNat (arg.extractLsb' 16 8).toNat (arg.extractLsb' 24 32).toNat

/-- The complete opcode map (rule R76), in the rule's order. -/
def opcodeMap : List OpRow :=
  [ ⟨0x0100000000000000, 0xFF000000000000FE, initOfArg⟩,
    ⟨0x0200000000000000, 0xFF00000000000000, fun arg => .aad arg.toNat⟩,
    ⟨0x0300000000000000, 0xFF00000000000000, fun arg => .msg arg.toNat⟩,
    ⟨0x0400000000000000, 0xFF00000000000000, fun arg => .osize arg.toNat⟩,
    ⟨0x0500000000000000, 0xFF00000000000000, fun arg => .final arg.toNat⟩,
    ⟨0x0600000000000000, 0xFFFFFFFFFFFFFFFF, fun _ => .reset⟩,
    ⟨0x1000000000000000, 0xFFFFFFFFFFFFFFFF, fun _ => .pvSeed⟩,
    ⟨0x1100000000000000, 0xFFFFFFFFFFFFFFFF, fun _ => .pvClr⟩,
    ⟨0x1200000000000000, 0xFFFFFFFFFFFFFFFF, fun _ => .pvBlk⟩,
    ⟨0x1300000000000000, 0xFF00000000000000, fun arg => .pvSeq arg.toNat⟩,
    ⟨0x1400000000000000, 0xFFFFFFFFFFFFFFFF, fun _ => .pvLen⟩,
    ⟨0x1500000000000000, 0xFFFFFFFFFFFFFFFF, fun _ => .pvOut⟩,
    ⟨0x2000000000000000, 0xFF00000000000000, fun arg => .ksKey arg.toNat⟩,
    ⟨0x2100000000000000, 0xFFFFFFFFFFFFFFFF, fun _ => .ksLoad⟩,
    ⟨0x2300000000000000, 0xFF00000000000000, fun arg => .ksRun arg.toNat⟩,
    ⟨0x2400000000000000, 0xFFFFFFFFFFFFFFFF, fun _ => .ksCtr⟩,
    ⟨0x3000000000000000, 0xFFFFFFFFFFFFFFFF, fun _ => .tcCmp⟩ ]

/-- Does the word select the row (rule R76)? -/
def OpRow.selects (r : OpRow) (w : Word64) : Bool := (w &&& r.mask) == r.pattern

/-- Decode a command word (rules R76 to R78). -/
def decode (w : Word64) : Except DecodeError Instr :=
  match opcodeMap.find? (fun r => r.selects w) with
  | some r => .ok (r.build (argOf w))
  | none =>
    if opcodeMap.any (fun r => opcOf r.pattern == opcOf w) then .error (.reservedArgument (opcOf w) (argOf w))
    else .error (.reservedOpcode (opcOf w))

/-- The command word of an opcode and an argument (rule R71). -/
def commandWord (opc : BitVec 8) (arg : BitVec 56) : Word64 := opc ++ arg

/-- The argument of an `INIT` (rule R74); bits 7 to 1 are zero. -/
def initArg (enc : Bool) (klen nlen alen : Nat) : BitVec 56 :=
  BitVec.ofNat 32 alen ++ BitVec.ofNat 8 nlen ++ BitVec.ofNat 8 klen ++ 0#7 ++ BitVec.ofBool enc

/-- Encode a command (rules R71, R74 to R76). -/
def encode : Instr → Word64
  | .init enc klen nlen alen => commandWord 0x01 (initArg enc klen nlen alen)
  | .aad len => commandWord 0x02 (BitVec.ofNat 56 len)
  | .msg len => commandWord 0x03 (BitVec.ofNat 56 len)
  | .osize pendingLen => commandWord 0x04 (BitVec.ofNat 56 pendingLen)
  | .final ocap => commandWord 0x05 (BitVec.ofNat 56 ocap)
  | .reset => commandWord 0x06 0
  | .pvSeed => commandWord 0x10 0
  | .pvClr => commandWord 0x11 0
  | .pvBlk => commandWord 0x12 0
  | .pvSeq len => commandWord 0x13 (BitVec.ofNat 56 len)
  | .pvLen => commandWord 0x14 0
  | .pvOut => commandWord 0x15 0
  | .ksKey klen => commandWord 0x20 (BitVec.ofNat 56 klen)
  | .ksLoad => commandWord 0x21 0
  | .ksRun len => commandWord 0x23 (BitVec.ofNat 56 len)
  | .ksCtr => commandWord 0x24 0
  | .tcCmp => commandWord 0x30 0

/-- `PLEN` of a command, in bytes (rule R73). -/
def payloadLength : Instr → Nat
  | .init _ klen nlen alen => klen + nlen + alen
  | .aad len => len
  | .msg len => len
  | .osize _ => 0
  | .final _ => 0
  | .reset => 0
  | .pvSeed => 16
  | .pvClr => 0
  | .pvBlk => 16
  | .pvSeq len => len
  | .pvLen => 16
  | .pvOut => 0
  | .ksKey klen => klen
  | .ksLoad => 16
  | .ksRun len => len
  | .ksCtr => 0
  | .tcCmp => 32

/-- `PLEN` of a command word: 0 for a word that matches no row (rule R73). -/
def wordPayloadLength (w : Word64) : Nat :=
  match decode w with
  | .ok i => payloadLength i
  | .error _ => 0

/-- The command the decoder reads from the bits `w` of a table row of `nbits` bits; every bit above them is 0. -/
def decodeTableWord (nbits w : Nat) : Option Instr :=
  match decode (BitVec.ofNat 64 (w % 2 ^ nbits)) with
  | .ok i => some i
  | .error _ => none

end Sys2Proof
end

