-- ==== Sys2Proof/Config.lean ====
section
/-! DEFINITION. The four parameters of the model (`00_scope.md` rules R7, R8, R10; decisions D15, D30): the block
cipher `E`, the multiplier `MUL`, and the buffer limits `AAD_MAX` and `MSG_MAX`. They are no state. The attached
ones are opaque: nothing in Lean can evaluate them, so whatever is proved of the machine holds of every cipher,
every multiplier and every pair of limits rule R8 allows. -/

namespace Sys2Proof

/-- The greatest value rule R8 allows for either limit, so that every length fits a 56-bit field. -/
def Config.greatestLimit : Nat := 2 ^ 56 - 17

/-- The default of either limit, the source's nominal `2^36` bytes (rule R8; decision D15). -/
def Config.defaultLimit : Fin (Config.greatestLimit + 1) := ⟨2 ^ 36, by decide⟩

/-- What is fixed when the block is constructed (rules R7 to R10). The shared operations take it as an argument,
so that the spec's vectors can be run with the spec's reference instances (decision D30). -/
structure Config where
  /-- `E(k, b)`: the cipher collaborator, a total function of its two arguments (rules R7, R9). -/
  cipher : Key → Block → Block
  /-- `MUL(x, h)`: the multiplier collaborator, a total function of its two arguments (rules R10, R143). -/
  gfmul : Block → Block → Block
  /-- `AAD_MAX`, at most `2^56 - 17`, by default `2^36` (rule R8). -/
  aadLimit : Fin (Config.greatestLimit + 1) := Config.defaultLimit
  /-- `MSG_MAX`, at most `2^56 - 17`, by default `2^36` (rule R8). -/
  msgLimit : Fin (Config.greatestLimit + 1) := Config.defaultLimit

/-- `AAD_MAX` as a number of bytes (rule R8). -/
def Config.aadMax (c : Config) : Nat := c.aadLimit.val

/-- `MSG_MAX` as a number of bytes (rule R8). -/
def Config.msgMax (c : Config) : Nat := c.msgLimit.val

/-- The attached cipher: a parameter of the model, never evaluated (rule R7; assumption log 1). -/
opaque Config.attachedCipher : Key → Block → Block

/-- The attached multiplier: a parameter of the model, never evaluated (rule R10; assumption log 2). -/
opaque Config.attachedMul : Block → Block → Block

/-- The implementation's `AAD_MAX`: any number rule R8 allows (assumption log 3). -/
opaque Config.attachedAadLimit : Fin (Config.greatestLimit + 1)

/-- The implementation's `MSG_MAX`: any number rule R8 allows (assumption log 3). -/
opaque Config.attachedMsgLimit : Fin (Config.greatestLimit + 1)

/-- The configuration of the machine: the collaborators and limits it was constructed with (rule R252). -/
def Config.attached : Config where
  cipher := Config.attachedCipher
  gfmul := Config.attachedMul
  aadLimit := Config.attachedAadLimit
  msgLimit := Config.attachedMsgLimit

end Sys2Proof
end

