-- ==== Sys2Proof/Machine/Bytes.lean ====
section
/-! DEFINITION. Byte order: fixed-size values as lists of bytes, first byte first, and the little-endian numbers of
`00_scope.md` rule R13 and `20_memory.md` rule R52. -/

namespace Sys2Proof.Machine

/-- The `n` bytes of a value of `n` bytes, first byte (the most significant) first (rule R11). -/
def bytesOf (n : Nat) {w : Nat} (v : BitVec w) : List Byte :=
  (List.range n).map fun i => v.extractLsb' (8 * (n - 1 - i)) 8

/-- The value of `w` bits whose bytes, first byte first, are the list (rule R11). -/
def ofBytes (w : Nat) (bs : List Byte) : BitVec w :=
  bs.foldl (fun v b => (v <<< 8) ||| b.setWidth w) 0

/-- Byte `i` of a block, `b[i]` (rule R11). -/
def byteAt (b : Block) (i : Nat) : Byte := b.extractLsb' (8 * (15 - i)) 8

/-- The number a byte sequence stands for when its first byte is the least significant: `le32` of rule R13, at any
length. -/
def leNat : List Byte → Nat
  | [] => 0
  | b :: bs => b.toNat + 2 ^ 8 * leNat bs

/-- The byte sequence of `n` bytes whose byte `i` is `(v >> 8i) & 0xff`: `LE32` and `LE64` of rule R13. -/
def leBytes : Nat → Nat → List Byte
  | 0, _ => []
  | n + 1, v => BitVec.ofNat 8 v :: leBytes n (v / 2 ^ 8)

/-- Byte by byte `^` of two sequences, as long as the shorter one (rules R13, R172). -/
def xorBytes (a b : List Byte) : List Byte := List.zipWith (· ^^^ ·) a b

/-- The 16-byte pieces of a sequence, `n` of them: `s[0..16)`, `s[16..32)`, …; the last may be shorter. -/
def pieces : Nat → List Byte → List (List Byte)
  | 0, _ => []
  | n + 1, s => s.take 16 :: pieces n (s.drop 16)

/-- How many blocks a sequence of `len` bytes takes, `ceil(len / 16)` (rules R144, R172). -/
def blockCount (len : Nat) : Nat := (len + 15) / 16

/-- The `ceil(L / 16)` pieces of a sequence of length `L` (rules R144, R172). -/
def piecesOf (s : List Byte) : List (List Byte) := pieces (blockCount s.length) s

end Sys2Proof.Machine
end

