-- ==== Sys2Proof/Machine/KeyDerivation.lean ====
section
/-! DEFINITION. Key derivation (`41_key_derivation.md`): the procedure `KDF`, run only inside `INIT`. -/

namespace Sys2Proof.Machine

/-- `s[0] <- (s[0] + 1) & 0xff`: only byte 0 of the scratch block changes (rule R130). -/
def bumpByte0 (s : Block) : Block := (s.extractLsb' 120 8 + 1) ++ s.extractLsb' 0 120

/-- The scratch block of the `i`-th encipherment; the first is `0^4 ‖ nonce` (rule R130). -/
def scratch (nonce : Nonce) : Nat → Block
  | 0 => 0#32 ++ nonce
  | i + 1 => bumpByte0 (scratch nonce i)

/-- `h[i]`: the first 8 bytes of the cipher's output (rule R130). -/
def kdfHalf (c : Config) (master : Key) (nonce : Nonce) (i : Nat) : BitVec 64 :=
  (c.cipher master (scratch nonce i)).extractLsb' 64 64

/-- `macKey = h[0] ‖ h[1]` (rule R130). -/
def deriveMacKey (c : Config) (master : Key) (nonce : Nonce) : Block :=
  kdfHalf c master nonce 0 ++ kdfHalf c master nonce 1

/-- `encKey = h[2] ‖ h[3]`, or `h[2] ‖ h[3] ‖ h[4] ‖ h[5]` for a 32-byte master key (rule R130). -/
def deriveEncKey (c : Config) (master : Key) (nonce : Nonce) : Key :=
  match master with
  | .k16 _ => .k16 (kdfHalf c master nonce 2 ++ kdfHalf c master nonce 3)
  | .k32 _ =>
    .k32 (kdfHalf c master nonce 2 ++ kdfHalf c master nonce 3 ++ kdfHalf c master nonce 4 ++ kdfHalf c master nonce 5)

end Sys2Proof.Machine
end

