-- ==== Sys2Proof/Machine/Operands.lean ====
section
/-! DEFINITION. The operand forms: how a command's payload is cut into its operands (`30_encoding.md` rules R74,
R75; `20_memory.md` rule R51: the items follow each other with no padding and no length prefix). -/

namespace Sys2Proof.Machine

/-- A key operand: only 16 or 32 bytes make a key (rules R6, R7). -/
def keyOperand (bs : List Byte) : Option Key :=
  if bs.length = 16 then some (.k16 (ofBytes 128 bs))
  else if bs.length = 32 then some (.k32 (ofBytes 256 bs))
  else none

/-- The key of an `INIT` payload `key ‖ nonce ‖ initialAAD` (rule R74). -/
def initKeyBytes (klen : Nat) (payload : List Byte) : List Byte := payload.take klen

/-- The nonce of an `INIT` payload (rule R74). -/
def initNonceBytes (klen nlen : Nat) (payload : List Byte) : List Byte := (payload.drop klen).take nlen

/-- The initial associated data of an `INIT` payload (rule R74). -/
def initAadBytes (klen nlen : Nat) (payload : List Byte) : List Byte := payload.drop (klen + nlen)

/-- A one-block operand: `PV.SEED`, `PV.BLK`, `KS.LOAD` (rule R75). -/
def blockOperand (payload : List Byte) : Block := ofBytes 128 (payload.take 16)

/-- The associated-data byte count of a `PV.LEN` payload `LE64(a) ‖ LE64(m)` (rule R75). -/
def aadCountOperand (payload : List Byte) : Nat := leNat (payload.take 8)

/-- The message byte count of a `PV.LEN` payload (rule R75). -/
def msgCountOperand (payload : List Byte) : Nat := leNat ((payload.drop 8).take 8)

/-- The first tag of a `TC.CMP` payload `a ‖ b` (rule R75). -/
def firstTagOperand (payload : List Byte) : Block := ofBytes 128 (payload.take 16)

/-- The second tag of a `TC.CMP` payload `a ‖ b` (rule R75). -/
def secondTagOperand (payload : List Byte) : Block := ofBytes 128 ((payload.drop 16).take 16)

end Sys2Proof.Machine
end

