-- ==== Sys2Proof/Machine/State.lean ====
section
/-! DEFINITION. The state of the block: the twelve elements of `10_state.md` rules R23 to R34, and what stands on
its ports (`30_encoding.md` rule R70). Plain data. `none` is the spec's own content of a register nothing has
written since hardware reset (rule R20); it is not a missing reset value. -/

namespace Sys2Proof.Machine

/-- `sst`, the session state (rule R23). -/
inductive SessionState where
  | uninit
  | ready
  | finalized
deriving DecidableEq, Repr

/-- `mode` (rule R24). -/
inductive Mode where
  | encrypt
  | decrypt
deriving DecidableEq, Repr

/-- The status of a command (rule R221): `OK` and the five error kinds of rule R220. -/
inductive Status where
  | ok
  | configurationError
  | stateError
  | capacityError
  | authenticationError
  | illegalCommand
deriving DecidableEq, Repr

/-- What the host can do to the block between commands: present a command word (rule R70), or assert the hardware
reset (rule R250). -/
inductive HostEvent where
  | command (cw : Word64)
  | hardwareReset
deriving DecidableEq, Repr

/-- One item the block delivers: a response word or a byte of a response payload (rules R70, R72). -/
inductive PortOut where
  | word (rw : Word64)
  | byte (b : Byte)
deriving DecidableEq, Repr

/-- The whole state. The last three fields are the ports of rule R70 (assumption log 4). -/
structure State where
  /-- the session state (rule R23) -/
  sst : SessionState
  /-- encrypt or decrypt (rule R24) -/
  mode : Option Mode
  /-- the session nonce, 12 bytes (rule R25) -/
  nonce : Option Nonce
  /-- the initial associated data of the last successful `INIT` (rule R26) -/
  aad0 : List Byte
  /-- the associated-data buffer (rule R27) -/
  aadBuf : List Byte
  /-- the message buffer (rule R28) -/
  msgBuf : List Byte
  /-- the derived authentication key, 16 bytes (rule R29) -/
  macKey : Option Block
  /-- the derived encryption key, 16 or 32 bytes (rule R30) -/
  encKey : Option Key
  /-- the POLYVAL accumulator of unit PVA, 16 bytes (rule R31) -/
  acc : Block
  /-- the counter block of unit KSG, 16 bytes (rule R32) -/
  ctr : Option Block
  /-- the key the cipher is initialised with, 16 or 32 bytes (rule R33) -/
  ckey : Option Key
  /-- the field element the multiplier is seeded with, 16 bytes (rule R34) -/
  mulH : Option Block
  /-- what the host will present, first first: command words and hardware resets (rules R70, R250) -/
  hostIn : List HostEvent
  /-- the payload bytes the host supplies, first first (rules R51, R70) -/
  payIn : List Byte
  /-- everything the block has delivered, first first: response words and response payload (rules R51, R72) -/
  output : List PortOut
deriving DecidableEq, Repr

/-- The ways the machine stops without a next state. -/
inductive Fault where
  /-- Raised by every command with a payload, when the payload port holds fewer than `PLEN` bytes and the host has
  stopped: the block waits for ever (U16, rule R73). SAFE: no claim about a next state can be proved of it. -/
  | payloadStarved
deriving DecidableEq, Repr

/-- Why a command has no meaning in the model. -/
inductive Refusal where
  /-- Raised by an arm of `exec` whose command has no meaning yet; no arm raises it. SAFE. -/
  | notModelled (mnemonic : String)
deriving DecidableEq, Repr

/-- The machine right after hardware reset, with the reset values of rule R38 (rule R250) and nothing on its ports
(assumption log 4). -/
def State.reset : State where
  sst := .uninit
  mode := none
  nonce := none
  aad0 := []
  aadBuf := []
  msgBuf := []
  macKey := none
  encKey := none
  acc := 0
  ctr := none
  ckey := none
  mulH := none
  hostIn := []
  payIn := []
  output := []

end Sys2Proof.Machine
end

