-- ==== Sys2Proof/Machine/Flags.lean ====
section
/-! DEFINITION. The block keeps no flags and no condition codes (`10_state.md` rule R35). What stands in their
place is the status of a command, which travels in its response word and is not latched: the codes of
`60_exceptions.md` rule R221 and the response word of `30_encoding.md` rule R72. -/

namespace Sys2Proof.Machine

/-- The status codes of rule R221. -/
def Status.code : Status → BitVec 8
  | .ok => 0x00
  | .configurationError => 0x01
  | .stateError => 0x02
  | .capacityError => 0x03
  | .authenticationError => 0x04
  | .illegalCommand => 0x05

/-- The response word: `ST` in bits 63 to 56, `VAL` in bits 55 to 0 (rule R72). -/
def responseWord (st : Status) (val : BitVec 56) : Word64 := st.code ++ val

/-- One whole response: the response word, then the response payload (rule R72). -/
def response (st : Status) (val : BitVec 56) (payload : List Byte) : List PortOut :=
  .word (responseWord st val) :: payload.map .byte

end Sys2Proof.Machine
end

