-- ==== Sys2Proof/Machine/Ops.lean ====
section
/-! DEFINITION. The named operations over the state: the ports, the response, the error entry, the frame every
command runs in, the unit-command lock, the two buffers, and the hardware reset. -/

namespace Sys2Proof.Machine

/-! ## Ports and responses -/

/-- Deliver one response: the word, then its payload (rules R70, R72). -/
def respond (st : Status) (val : BitVec 56) (payload : List Byte) (s : State) : State :=
  { s with output := s.output ++ response st val payload }

/-- `respond OK, VAL = n` with a response payload. -/
def respondOk (val : Nat) (payload : List Byte) (s : State) : State :=
  respond .ok (BitVec.ofNat 56 val) payload s

/-- TAKING AN EXCEPTION, `raise K` (rules R14, R228): the response word carries the code, `VAL = 0`, no payload; an
error saves nothing, switches no mode and transfers control nowhere. There is no return from one (rule R229): the
next command is executed normally. -/
def raise (st : Status) (s : State) : State := respond st 0 [] s

/-- The frame of every command with `PLEN = n`: it takes `n` payload bytes whatever its status (rules R54, R73) and
then acts as `body` says. With fewer bytes it waits for ever (U16). -/
def command (n : Nat) (body : List Byte → State → State) (s : State) : Host.Outcome State Fault Refusal :=
  if s.payIn.length < n then .fault .payloadStarved
  else .next (body (s.payIn.take n) { s with payIn := s.payIn.drop n })

/-- The unit-command lock: a unit command is executed only while `sst = Uninit` (rule R79). -/
def unitCommand (body : State → State) (s : State) : State :=
  if s.sst = .uninit then body s else raise .stateError s

/-- The next thing the host does, and the state that has taken it. -/
def nextEvent (s : State) : Option (HostEvent × State) :=
  match s.hostIn with
  | [] => none
  | e :: rest => some (e, { s with hostIn := rest })

/-- A word that matches no row: no payload, no state change, `IllegalCommand` (rules R77, R78, R227). -/
def illegalWord (s : State) : State := raise .illegalCommand s

/-! ## The buffers -/

/-- The greatest length of the message buffer: `MSG_MAX`, and 16 more in `Decrypt` mode (rules R8, R62). -/
def msgBufLimit (c : Config) (mode : Option Mode) : Nat :=
  if mode = some .encrypt then c.msgMax else c.msgMax + 16

/-- `aadBuf <- aadBuf ‖ data` (rule R104). -/
def appendAad (data : List Byte) (s : State) : State := { s with aadBuf := s.aadBuf ++ data }

/-- `msgBuf <- msgBuf ‖ data` (rule R105). -/
def appendMsg (data : List Byte) (s : State) : State := { s with msgBuf := s.msgBuf ++ data }

/-- `RESETBUF` (rule R101). -/
def resetBuf (s : State) : State := { s with aadBuf := s.aad0, msgBuf := [] }

/-- The epilogue of `FINAL`: `RESETBUF ; aadBuf <- ε ; sst <- Finalized` (rule R195). -/
def finishSession (s : State) : State := { resetBuf s with aadBuf := [], sst := .finalized }

/-- The two buffers, all the memory the block has (rule R50), are within their capacity (rule R62). -/
def Memory.wf (c : Config) (s : State) : Bool :=
  decide (s.aadBuf.length ≤ c.aadMax) && decide (s.aad0.length ≤ c.aadMax) &&
    decide (s.msgBuf.length ≤ msgBufLimit c s.mode)

/-! ## Hardware reset -/

/-- Hardware reset: every state element of rules R23 to R34 takes its reset value (rules R38, R250). The ports'
streams are the host's and stay (assumption log 7). -/
def hardwareReset (s : State) : State :=
  { State.reset with hostIn := s.hostIn, payIn := s.payIn, output := s.output }

end Sys2Proof.Machine
end

