-- ==== Sys2Proof/Machine/Polyval.lean ====
section
/-! DEFINITION. Unit PVA, the POLYVAL accumulator (`42_polyval.md`): its functions, over any multiplier, and its six
commands. `gmul` is the spec's reference multiplier (rule R143); the machine does not use it, the vectors do. -/

namespace Sys2Proof.Machine

/-! ## Functions -/

/-- `REV(b)`, byte reversal (rule R140). -/
def rev (b : Block) : Block := ofBytes 128 (bytesOf 16 b).reverse

/-- `MULX(v)`: the block shifted right by one bit as a 128-bit string; if a 1 falls off the end, `0xE1` is XORed
into byte 0 (rule R141; the spec's own reading, decision D21, assumption log 12). -/
def mulX (v : Block) : Block :=
  if v.getLsbD 0 then (v >>> 1) ^^^ 0xE1000000000000000000000000000000#128 else v >>> 1

/-- `SEEDH(k) = MULX(REV(k))` (rule R142; conflict C6). -/
def seedH (k : Block) : Block := mulX (rev k)

/-- The loop of `GMUL`, its last `n` rounds: `x` is consumed from its first bit on (rule R143). -/
def gmulLoop : Nat → Block → Block → Block → Block
  | 0, _, _, z => z
  | n + 1, x, v, z => gmulLoop n (x <<< 1) (mulX v) (if x.getLsbD 127 then z ^^^ v else z)

/-- `GMUL(x, h)`, the reference multiplier (rule R143). -/
def gmul (x h : Block) : Block := gmulLoop 128 x h 0

/-! The direct form of rule R156, in the polynomial basis: coefficient `i` of a block `b` is bit `i` of `REV(b)`. -/

/-- `p · x` in the field defined by `x^128 + x^127 + x^126 + x^121 + 1` (rule R156). -/
def polyMulX (p : BitVec 128) : BitVec 128 :=
  if p.getLsbD 127 then (p <<< 1) ^^^ 0xC2000000000000000000000000000001#128 else p <<< 1

/-- The loop of `polyMul`, its last `n` rounds: Horner's rule over the first `n` coefficients of `a`. -/
def polyMulLoop : Nat → BitVec 128 → BitVec 128 → BitVec 128
  | 0, _, _ => 0
  | n + 1, a, b => polyMulLoop n a (polyMulX b) ^^^ (if a.getLsbD (127 - n) then b else 0)

/-- `a · b` in the field of rule R156: the sum of `a_i · x^i · b`. -/
def polyMul (a b : BitVec 128) : BitVec 128 := polyMulLoop 128 a b

/-- `PAD16(t) = t ‖ 0^(16 - len(t))`, as a block (rule R144). -/
def pad16 (t : List Byte) : Block := ofBytes 128 (t ++ List.replicate (16 - t.length) 0)

/-- `BLOCKS(s)` (rule R144). -/
def blocks (s : List Byte) : List Block := (piecesOf s).map pad16

/-- `FOLD(b)`: the accumulator after folding `b`, with the multiplier seeded with `h` (rule R145). -/
def fold (c : Config) (h acc b : Block) : Block := c.gfmul (acc ^^^ rev b) h

/-- `ABSORB(s)` (rule R146). -/
def absorb (c : Config) (h acc : Block) (s : List Byte) : Block := (blocks s).foldl (fold c h) acc

/-- `LENBLOCK(a, m) = LE64(8·a) ‖ LE64(8·m)`, associated data first (rule R150; conflict C1). -/
def lenBlock (a m : Nat) : Block := ofBytes 128 (leBytes 8 (8 * a) ++ leBytes 8 (8 * m))

/-- The accumulator `POLYVAL(aad, msg)` leaves (rule R153). -/
def polyvalAcc (c : Config) (h : Block) (aad msg : List Byte) : Block :=
  fold c h (absorb c h (absorb c h 0 aad) msg) (lenBlock aad.length msg.length)

/-- `POLYVAL(aad, msg) = REV(acc)` (rule R153). -/
def polyval (c : Config) (h : Block) (aad msg : List Byte) : Block := rev (polyvalAcc c h aad msg)

/-! ## Shared by the commands that read `mulH` -/

/-- The seeded test: a command that reads `mulH` raises `StateError` while it is `none` (rule R147). -/
def whenSeeded (body : Block → State → State) (s : State) : State :=
  match s.mulH with
  | none => raise .stateError s
  | some h => body h s

/-- Write the accumulator and answer `OK`. -/
def writeAcc (acc : Block) (s : State) : State := respondOk 0 [] { s with acc := acc }

/-! ## The commands' effects in `Uninit`, over any configuration -/

/-- `PV.SEED`: seed the multiplier; `acc` is not cleared (rule R148). -/
def pvSeedBody (p : List Byte) (s : State) : State := respondOk 0 [] { s with mulH := some (seedH (blockOperand p)) }

/-- `PV.BLK`: fold one block (rule R151). -/
def pvBlkBody (c : Config) (p : List Byte) (s : State) : State :=
  whenSeeded (fun h s => writeAcc (fold c h s.acc (blockOperand p)) s) s

/-- `PV.SEQ`: fold a byte sequence, its last block zero-padded (rule R152). -/
def pvSeqBody (c : Config) (p : List Byte) (s : State) : State :=
  whenSeeded (fun h s => writeAcc (absorb c h s.acc p) s) s

/-- `PV.LEN`: fold the length block of the two counts (rule R154). -/
def pvLenBody (c : Config) (p : List Byte) (s : State) : State :=
  whenSeeded (fun h s => writeAcc (fold c h s.acc (lenBlock (aadCountOperand p) (msgCountOperand p))) s) s

/-- `PV.OUT`: answer `REV(acc)` (rule R155). -/
def pvOutBody (s : State) : State := respondOk 16 (bytesOf 16 (rev s.acc)) s

/-! ## Commands -/

/-- `PV.SEED k` (rule R148). -/
def execPvSeed (s : State) : Host.Outcome State Fault Refusal := command 16 (fun p => unitCommand (pvSeedBody p)) s

/-- `PV.CLR` (rule R149). -/
def execPvClr (s : State) : Host.Outcome State Fault Refusal := command 0 (fun _ => unitCommand (writeAcc 0)) s

/-- `PV.BLK b` (rule R151). -/
def execPvBlk (s : State) : Host.Outcome State Fault Refusal :=
  command 16 (fun p => unitCommand (pvBlkBody Config.attached p)) s

/-- `PV.SEQ s` (rule R152). -/
def execPvSeq (len : Nat) (s : State) : Host.Outcome State Fault Refusal :=
  command len (fun p => unitCommand (pvSeqBody Config.attached p)) s

/-- `PV.LEN a, m` (rule R154). -/
def execPvLen (s : State) : Host.Outcome State Fault Refusal :=
  command 16 (fun p => unitCommand (pvLenBody Config.attached p)) s

/-- `PV.OUT` (rule R155). -/
def execPvOut (s : State) : Host.Outcome State Fault Refusal := command 0 (fun _ => unitCommand pvOutBody) s

end Sys2Proof.Machine
end

