-- ==== Sys2Proof/Machine/Session.lean ====
section
/-! DEFINITION. The session commands but `FINAL` (`40_session.md`): `INIT`, `AAD`, `MSG`, `OSIZE`, `RESET`. -/

namespace Sys2Proof.Machine

/-- The mode bit `ENC` selects (rules R24, R74). -/
def modeOf (enc : Bool) : Mode := if enc then .encrypt else .decrypt

/-- What a valid `INIT` writes, in the order of rules R103 and R253: mode, nonce, the derived keys, the cipher
re-initialised with `encKey`, the multiplier seeded from `macKey`, `aad0`, the buffers, `sst`. -/
def startSession (c : Config) (enc : Bool) (master : Key) (nonce : Nonce) (a0 : List Byte) (s : State) : State :=
  { resetBuf { s with
      mode := some (modeOf enc)
      nonce := some nonce
      macKey := some (deriveMacKey c master nonce)
      encKey := some (deriveEncKey c master nonce)
      ckey := some (deriveEncKey c master nonce)
      mulH := some (seedH (deriveMacKey c master nonce))
      aad0 := a0 } with
    sst := .ready }

/-- The size `OSIZE` answers, before its reduction modulo `2^56`; natural subtraction stops at 0 (rule R106). -/
def outputSize (mode : Mode) (n : Nat) : Nat :=
  match mode with
  | .encrypt => n + 16
  | .decrypt => n - 16

/-! ## The commands' effects, over any configuration -/

/-- `INIT`: the validation of rule R102, then rule R103. -/
def initBody (c : Config) (enc : Bool) (klen nlen alen : Nat) (p : List Byte) (s : State) : State :=
  match keyOperand (initKeyBytes klen p) with
  | some master =>
    if nlen = 12 ∧ alen ≤ c.aadMax then
      respondOk 0 []
        (startSession c enc master (ofBytes 96 (initNonceBytes klen nlen p)) (initAadBytes klen nlen p) s)
    else raise .configurationError s
  | none => raise .configurationError s

/-- `AAD`: in `Ready`, append what fits (rule R104). -/
def aadBody (c : Config) (data : List Byte) (s : State) : State :=
  if s.sst = .ready then
    if s.aadBuf.length + data.length ≤ c.aadMax then respondOk 0 [] (appendAad data s)
    else raise .stateError s
  else raise .stateError s

/-- `MSG`: in `Ready`, append what fits (rule R105). -/
def msgBody (c : Config) (data : List Byte) (s : State) : State :=
  if s.sst = .ready then
    if s.msgBuf.length + data.length ≤ msgBufLimit c s.mode then respondOk 0 [] (appendMsg data s)
    else raise .stateError s
  else raise .stateError s

/-- `OSIZE` (rule R106). Outside `Uninit` the mode always holds a value (rule R24); a state where it does not is
answered `StateError`, as rule R20 says of every command that would read `none` (assumption log 10). -/
def osizeBody (pendingLen : Nat) (s : State) : State :=
  if s.sst = .uninit then raise .stateError s
  else
    match s.mode with
    | some mode => respondOk (outputSize mode (pendingLen + s.msgBuf.length)) [] s
    | none => raise .stateError s

/-- `RESET`: in `Uninit` it does nothing and answers `OK` (rule R107). -/
def resetBody (s : State) : State :=
  if s.sst = .uninit then respondOk 0 [] s
  else respondOk 0 [] { resetBuf s with sst := .ready }

/-! ## Commands -/

/-- `INIT` (rules R102, R103). -/
def execInit (enc : Bool) (klen nlen alen : Nat) (s : State) : Host.Outcome State Fault Refusal :=
  command (klen + nlen + alen) (initBody Config.attached enc klen nlen alen) s

/-- `AAD` (rule R104). -/
def execAad (len : Nat) (s : State) : Host.Outcome State Fault Refusal := command len (aadBody Config.attached) s

/-- `MSG` (rule R105). -/
def execMsg (len : Nat) (s : State) : Host.Outcome State Fault Refusal := command len (msgBody Config.attached) s

/-- `OSIZE` (rule R106). -/
def execOsize (pendingLen : Nat) (s : State) : Host.Outcome State Fault Refusal :=
  command 0 (fun _ => osizeBody pendingLen) s

/-- `RESET` (rule R107). -/
def execReset (s : State) : Host.Outcome State Fault Refusal := command 0 (fun _ => resetBody) s

end Sys2Proof.Machine
end

