-- ==== Sys2Proof/Machine/Keystream.lean ====
section
/-! DEFINITION. Unit KSG, the counter-mode keystream generator (`43_keystream.md`): its functions, over any cipher,
and its four commands. -/

namespace Sys2Proof.Machine

/-! ## Functions -/

/-- `TOP1(t)`: the same 16 bytes with bit 7 of byte 15 set (rules R12, R170). -/
def top1 (t : Block) : Block := t ||| 0x80#128

/-- `INC32(c) = LE32((le32(c[0..4)) + 1) mod 2^32) ‖ c[4..16)` (rule R171). -/
def inc32 (c : Block) : Block :=
  ofBytes 128 (leBytes 4 (leNat ((bytesOf 16 c).take 4) + 1) ++ (bytesOf 16 c).drop 4)

/-- `CTRXOR` over the pieces of the data: the output and the counter after it. The counter steps after every block,
the last included; surplus keystream bytes are dropped (rule R172). -/
def ctrXorPieces (c : Config) (k : Key) : List (List Byte) → Block → List Byte × Block
  | [], ctr => ([], ctr)
  | p :: ps, ctr =>
    (xorBytes p (bytesOf 16 (c.cipher k ctr)) ++ (ctrXorPieces c k ps (inc32 ctr)).1,
      (ctrXorPieces c k ps (inc32 ctr)).2)

/-- `CTRXOR(data)`: the output and the counter after it (rule R172). -/
def ctrXor (c : Config) (k : Key) (ctr : Block) (data : List Byte) : List Byte × Block :=
  ctrXorPieces c k (piecesOf data) ctr

/-! ## The commands' effects in `Uninit`, over any configuration -/

/-- `KS.KEY`: key the cipher; only 16 or 32 bytes make a key (rule R176). -/
def ksKeyBody (p : List Byte) (s : State) : State :=
  match keyOperand p with
  | some k => respondOk 0 [] { s with ckey := some k }
  | none => raise .configurationError s

/-- `KS.LOAD`: load the counter (rule R177). -/
def ksLoadBody (p : List Byte) (s : State) : State := respondOk 0 [] { s with ctr := some (top1 (blockOperand p)) }

/-- `KS.RUN`: the keystream pass over the payload, once `ckey` and `ctr` hold values (rules R175, R178). -/
def ksRunBody (c : Config) (p : List Byte) (s : State) : State :=
  match s.ckey, s.ctr with
  | some k, some ctr =>
    respondOk (ctrXor c k ctr p).1.length (ctrXor c k ctr p).1 { s with ctr := some (ctrXor c k ctr p).2 }
  | _, _ => raise .stateError s

/-- `KS.CTR`: answer the counter, once it holds a value (rules R175, R179). -/
def ksCtrBody (s : State) : State :=
  match s.ctr with
  | some ctr => respondOk 16 (bytesOf 16 ctr) s
  | none => raise .stateError s

/-! ## Commands -/

/-- `KS.KEY key` (rule R176). -/
def execKsKey (klen : Nat) (s : State) : Host.Outcome State Fault Refusal :=
  command klen (fun p => unitCommand (ksKeyBody p)) s

/-- `KS.LOAD t` (rule R177). -/
def execKsLoad (s : State) : Host.Outcome State Fault Refusal := command 16 (fun p => unitCommand (ksLoadBody p)) s

/-- `KS.RUN data` (rule R178). -/
def execKsRun (len : Nat) (s : State) : Host.Outcome State Fault Refusal :=
  command len (fun p => unitCommand (ksRunBody Config.attached p)) s

/-- `KS.CTR` (rule R179). -/
def execKsCtr (s : State) : Host.Outcome State Fault Refusal := command 0 (fun _ => unitCommand ksCtrBody) s

end Sys2Proof.Machine
end

