-- ==== Sys2Proof/Machine/Tag.lean ====
section
/-! DEFINITION. The tag, unit TCMP and `FINAL` (`44_tag_finalize.md`). -/

namespace Sys2Proof.Machine

/-! ## Functions -/

/-- The tag pre-image: the POLYVAL result with the nonce XORed into its first 12 bytes and the top bit of byte 15
cleared (rule R190). -/
def tagPreimage (p : Block) (nonce : Nonce) : Block :=
  (p ^^^ (nonce ++ 0#32)) &&& 0xFFFFFFFFFFFFFFFFFFFFFFFFFFFFFF7F#128

/-- `TAGGEN(aad, msg)`: the tag (rule R190). It leaves `polyvalAcc` in `acc`. -/
def tagGen (c : Config) (k : Key) (h : Block) (nonce : Nonce) (aad msg : List Byte) : Block :=
  c.cipher k (tagPreimage (polyval c h aad msg) nonce)

/-- The difference the comparator accumulates over byte pairs, with OR (rule R191; decision D22). -/
def tagDifference (a b : List Byte) : Byte := (List.zip a b).foldl (fun d p => d ||| (p.1 ^^^ p.2)) 0

/-- `CTEQ(a, b)`: all 16 byte pairs are read, none is skipped (rule R191). -/
def ctEq (a b : Block) : Bool := tagDifference (bytesOf 16 a) (bytesOf 16 b) == 0

/-! ## `FINAL` -/

/-- The two checks of `FINAL` that read lengths only: a short decrypt input, then the output room (rules R193,
R198). -/
def finalCapacityError (mode : Mode) (ocap len : Nat) : Bool :=
  match mode with
  | .encrypt => decide (ocap < len + 16)
  | .decrypt => decide (len < 16) || decide (ocap < len - 16)

/-- The encrypt path of `FINAL` (rules R193, R194) with its epilogue (rule R195). -/
def finalEncrypt (c : Config) (k : Key) (h : Block) (nonce : Nonce) (s : State) : State :=
  let tag := tagGen c k h nonce s.aadBuf s.msgBuf
  let ct := ctrXor c k (top1 tag) s.msgBuf
  respondOk (ct.1 ++ bytesOf 16 tag).length (ct.1 ++ bytesOf 16 tag)
    (finishSession { s with acc := polyvalAcc c h s.aadBuf s.msgBuf, ctr := some ct.2 })

/-- The decrypt path of `FINAL` (rules R193, R196) with its epilogue (rule R195). The candidate plaintext leaves the
command only in the branch where the tags are equal. -/
def finalDecrypt (c : Config) (k : Key) (h : Block) (nonce : Nonce) (s : State) : State :=
  let body := s.msgBuf.take (s.msgBuf.length - 16)
  let supplied := ofBytes 128 (s.msgBuf.drop (s.msgBuf.length - 16))
  let cand := ctrXor c k (top1 supplied) body
  let expected := tagGen c k h nonce s.aadBuf cand.1
  let done := finishSession { s with acc := polyvalAcc c h s.aadBuf cand.1, ctr := some cand.2 }
  if ctEq expected supplied then respondOk cand.1.length cand.1 done
  else raise .authenticationError done

/-- `FINAL` in `Ready` (rule R193). A register it reads that holds `none`, which no reachable state has (rule R39),
is answered `StateError` (rule R20; assumption log 10). -/
def finalReady (c : Config) (ocap : Nat) (s : State) : State :=
  match s.mode with
  | none => raise .stateError s
  | some mode =>
    if finalCapacityError mode ocap s.msgBuf.length then raise .capacityError (finishSession s)
    else
      match s.nonce, s.ckey, s.mulH with
      | some nonce, some k, some h =>
        match mode with
        | .encrypt => finalEncrypt c k h nonce s
        | .decrypt => finalDecrypt c k h nonce s
      | _, _, _ => raise .stateError s

/-- `FINAL`: the state check first, which changes nothing (rule R193; conflict C7). -/
def finalBody (c : Config) (ocap : Nat) (s : State) : State :=
  if s.sst = .ready then finalReady c ocap s else raise .stateError s

/-- `TC.CMP` in `Uninit`: the bit travels in `VAL` (rule R192). -/
def tcCmpBody (p : List Byte) (s : State) : State :=
  respondOk (if ctEq (firstTagOperand p) (secondTagOperand p) then 1 else 0) [] s

/-! ## Commands -/

/-- `TC.CMP a, b` (rule R192). -/
def execTcCmp (s : State) : Host.Outcome State Fault Refusal := command 32 (fun p => unitCommand (tcCmpBody p)) s

/-- `FINAL OCAP` (rule R193). -/
def execFinal (ocap : Nat) (s : State) : Host.Outcome State Fault Refusal :=
  command 0 (fun _ => finalBody Config.attached ocap) s

end Sys2Proof.Machine
end

