-- ==== Sys2Proof/Machine/Dispatch.lean ====
section
/-! DEFINITION. One arm per command: the meaning of each. -/

namespace Sys2Proof.Machine

def exec (i : Instr) (s : State) : Host.Outcome State Fault Refusal :=
  match i with
  | .init enc klen nlen alen => Sys2Proof.Machine.execInit enc klen nlen alen s
  | .aad len => Sys2Proof.Machine.execAad len s
  | .msg len => Sys2Proof.Machine.execMsg len s
  | .osize pendingLen => Sys2Proof.Machine.execOsize pendingLen s
  | .final ocap => Sys2Proof.Machine.execFinal ocap s
  | .reset => Sys2Proof.Machine.execReset s
  | .pvSeed => Sys2Proof.Machine.execPvSeed s
  | .pvClr => Sys2Proof.Machine.execPvClr s
  | .pvBlk => Sys2Proof.Machine.execPvBlk s
  | .pvSeq len => Sys2Proof.Machine.execPvSeq len s
  | .pvLen => Sys2Proof.Machine.execPvLen s
  | .pvOut => Sys2Proof.Machine.execPvOut s
  | .ksKey klen => Sys2Proof.Machine.execKsKey klen s
  | .ksLoad => Sys2Proof.Machine.execKsLoad s
  | .ksRun len => Sys2Proof.Machine.execKsRun len s
  | .ksCtr => Sys2Proof.Machine.execKsCtr s
  | .tcCmp => Sys2Proof.Machine.execTcCmp s

end Sys2Proof.Machine
end

