-- ==== Sys2Proof/Machine/Step.lean ====
section
/-! DEFINITION. One step of the block: it takes the next thing the host does (`20_memory.md` rule R57: one command
at a time, in order, each to completion). -/

namespace Sys2Proof.Machine

/-- One step. With nothing presented the block is idle and holds its state (rule R237); a hardware reset between
commands is rule R250's; a command word is decoded once (rule R60) and run, or answered `IllegalCommand` (rules
R77, R78). -/
def step (s : State) : Host.Outcome State Fault Refusal :=
  match nextEvent s with
  | none => .next s
  | some (.hardwareReset, s') => .next (hardwareReset s')
  | some (.command w, s') =>
    match decode w with
    | .ok i => exec i s'
    | .error _ => .next (illegalWord s')

/-- `s` with the command word `w` of `nbits` bits presented next, its payload all zeros: the host presents a command
as its word and the `PLEN` bytes after it (rules R70, R73), and the block fetches nothing itself (rule R22;
assumption log 15). -/
def State.withFetchWord (s : State) (nbits w : Nat) : State :=
  { s with
    hostIn := .command (BitVec.ofNat 64 (w % 2 ^ nbits)) :: s.hostIn
    payIn := List.replicate (wordPayloadLength (BitVec.ofNat 64 (w % 2 ^ nbits))) 0 ++ s.payIn }

end Sys2Proof.Machine
end

