-- ==== Sys2Proof/Safety.lean ====
section
/-! DEFINITION. The terms the claims use: the invariants of `10_state.md` rule R39, the relations between states that
the secrecy claims compare (rules R40, R261), and which commands are unit commands (rule R17). -/

namespace Sys2Proof.Machine

/-- The invariants of rule R39. The lengths of the nonce, of the keys and of the tag hold by their types. -/
structure SessionInv (c : Config) (s : State) : Prop where
  /-- `len(aadBuf) ≤ AAD_MAX`, `len(aad0) ≤ AAD_MAX`, `len(msgBuf) ≤ MSG_MAX` (`+ 16` in `Decrypt`) -/
  buffers_fit : Memory.wf c s = true
  /-- `aadBuf = msgBuf = ε` whenever `sst ≠ Ready` -/
  empty_outside_ready : s.sst ≠ .ready → s.aadBuf = [] ∧ s.msgBuf = []
  /-- outside `Uninit` the session registers hold values -/
  registers_hold : s.sst ≠ .uninit →
    s.mode.isSome = true ∧ s.nonce.isSome = true ∧ s.macKey.isSome = true ∧ s.encKey.isSome = true
  /-- outside `Uninit` the cipher is keyed with `encKey` and the multiplier seeded from `macKey` -/
  collaborators_keyed : s.sst ≠ .uninit → s.ckey = s.encKey ∧ s.mulH = s.macKey.map seedH

/-- In `Uninit` no session register holds anything: only a successful `INIT` writes them (rules R24 to R26, R29,
R30). -/
def NoSessionInUninit (s : State) : Prop :=
  s.sst = .uninit → s.mode = none ∧ s.nonce = none ∧ s.macKey = none ∧ s.encKey = none ∧ s.aad0 = []

/-- The two states differ at most in the unit registers `acc` and `ctr` (rules R31, R32, R261). -/
def SameButUnitRegisters (s t : State) : Prop := t = { s with acc := t.acc, ctr := t.ctr }

/-- The two states differ at most in the secret registers of rule R40 and in `nonce`, `acc` and `ctr`. -/
def SameButSecrets (s t : State) : Prop :=
  t = { s with nonce := t.nonce, macKey := t.macKey, encKey := t.encKey, ckey := t.ckey, mulH := t.mulH,
               acc := t.acc, ctr := t.ctr }

/-- The unit commands: one of the `PV.*`, `KS.*`, `TC.*` commands (rule R17). -/
def isUnit : Instr → Bool
  | .init _ _ _ _ => false
  | .aad _ => false
  | .msg _ => false
  | .osize _ => false
  | .final _ => false
  | .reset => false
  | .pvSeed => true
  | .pvClr => true
  | .pvBlk => true
  | .pvSeq _ => true
  | .pvLen => true
  | .pvOut => true
  | .ksKey _ => true
  | .ksLoad => true
  | .ksRun _ => true
  | .ksCtr => true
  | .tcCmp => true

/-- Is the command `FINAL`, the one session command that answers with a payload (rule R72)? -/
def isFinal (i : Instr) : Bool :=
  match i with
  | .final _ => true
  | .init _ _ _ _ | .aad _ | .msg _ | .osize _ | .reset | .pvSeed | .pvClr | .pvBlk | .pvSeq _ | .pvLen | .pvOut
  | .ksKey _ | .ksLoad | .ksRun _ | .ksCtr | .tcCmp => false

/-- The commands whose `OK` response carries a payload of `RLEN = VAL` bytes (rule R72). -/
def answersWithPayload (i : Instr) : Bool :=
  match i with
  | .final _ | .ksRun _ | .pvOut | .ksCtr => true
  | .init _ _ _ _ | .aad _ | .msg _ | .osize _ | .reset | .pvSeed | .pvClr | .pvBlk | .pvSeq _ | .pvLen
  | .ksKey _ | .ksLoad | .tcCmp => false

/-- The opcodes the map lists (rule R76). -/
def listedOpcodes : List (BitVec 8) :=
  [0x01, 0x02, 0x03, 0x04, 0x05, 0x06, 0x10, 0x11, 0x12, 0x13, 0x14, 0x15, 0x20, 0x21, 0x23, 0x24, 0x30]

/-- The opcodes whose whole `ARG` must be 0 (rules R75, R78). -/
def zeroArgOpcodes : List (BitVec 8) :=
  [0x06, 0x10, 0x11, 0x12, 0x14, 0x15, 0x21, 0x24, 0x30]

end Sys2Proof.Machine
end

