-- ==== Sys2Proof/Certificates/Slice0/Obligations.lean ====
section
/-! DEFINITION. The statements about the block, for the provers. `Config.attached` is opaque: a statement about it
holds of every cipher, every multiplier and all limits (`Config.lean`). -/

open Sys2Proof Sys2Proof.Machine

/-! ## Decoding and encoding -/

/-- Rules R71, R74, R75, R76: the decoder gives back every well-formed command from its word. -/
def Obligations.DecodeOfEncode : Prop :=
  ∀ i : Instr, i.wellFormed = true → decode (encode i) = .ok i

/-- Rules R71, R74, R75, R76: a word that decodes is the encoding of the one command it decodes to, which is well
formed: no bit of a word is dropped. -/
def Obligations.EncodeOfDecode : Prop :=
  ∀ (w : Word64) (i : Instr), decode w = .ok i → encode i = w ∧ i.wellFormed = true

/-- Rule R76, "Rows are disjoint": no word selects two rows of the opcode map. -/
def Obligations.OpcodeRowsDisjoint : Prop :=
  ∀ (w : Word64) (m n : Fin opcodeMap.length),
    (opcodeMap.get m).selects w = true → (opcodeMap.get n).selects w = true → m = n

/-- Rule R83, the worked encodings, word for word (the spec marks that rule as derived from rules R71, R72, R74, R75
and R221). -/
def Obligations.WorkedEncodings : Prop :=
  decode 0x01000000030C1001 = .ok (.init true 16 12 3) ∧ wordPayloadLength 0x01000000030C1001 = 31 ∧
  argOf 0x01000000030C1001 = 0x30C1001 ∧ encode (.init true 0x10 0x0C 3) = 0x01000000030C1001 ∧
  decode 0x0300000000000005 = .ok (.msg 5) ∧ wordPayloadLength 0x0300000000000005 = 5 ∧
  decode 0x0500000000000015 = .ok (.final 21) ∧
  (∀ payload : List Byte, response .ok 21 payload = .word 0x0000000000000015 :: payload.map .byte) ∧
  response .authenticationError 0 [] = [.word 0x0400000000000000]

/-! ## The step -/

/-- Rules R57, R60, R70: when the next thing presented is a word that decodes to a well-formed command, the step is
that command's meaning on the state that has taken the word. -/
def Obligations.StepRunsDecodedCommand : Prop :=
  ∀ (s : State) (w : Word64) (rest : List HostEvent) (i : Instr),
    s.hostIn = .command w :: rest → decode w = .ok i → i.wellFormed = true →
    step s = exec i { s with hostIn := rest }

/-- Rules R77 and R78: a word with an unlisted opcode, or with a listed one and a nonzero reserved bit, takes no
payload, changes no state and is answered `IllegalCommand` with `VAL = 0`. -/
def Obligations.ReservedWordsAnsweredIllegal : Prop :=
  ∀ (s : State) (w : Word64) (rest : List HostEvent),
    s.hostIn = .command w :: rest →
    (opcOf w ∉ listedOpcodes ∨ (opcOf w ∈ zeroArgOpcodes ∧ argOf w ≠ 0) ∨
      (opcOf w = 0x01 ∧ (argOf w).extractLsb' 1 7 ≠ 0)) →
    wordPayloadLength w = 0 ∧
    step s = .next { s with hostIn := rest, output := s.output ++ response .illegalCommand 0 [] }

/-- Rule R237, with the model's choice of assumption log 5 that an idle step is a step: with nothing presented the
block holds its state. -/
def Obligations.IdleBlockHoldsState : Prop :=
  ∀ s : State, s.hostIn = [] → step s = .next s

/-- Rules R38 and R250, with the model's choice of assumption log 7 that the ports' streams stay: hardware reset puts
every state element at its reset value. -/
def Obligations.HardwareResetRestoresResetValues : Prop :=
  ∀ (s : State) (rest : List HostEvent), s.hostIn = .hardwareReset :: rest →
    step s = .next
      { sst := .uninit, mode := none, nonce := none, aad0 := [], aadBuf := [], msgBuf := [], macKey := none,
        encKey := none, acc := 0, ctr := none, ckey := none, mulH := none,
        hostIn := rest, payIn := s.payIn, output := s.output }

/-- Rule R38: the reset values, one by one. -/
def Obligations.ResetValues : Prop :=
  State.reset.sst = .uninit ∧ State.reset.aadBuf = [] ∧ State.reset.msgBuf = [] ∧ State.reset.aad0 = [] ∧
  State.reset.acc = 0 ∧ State.reset.mode = none ∧ State.reset.nonce = none ∧ State.reset.macKey = none ∧
  State.reset.encKey = none ∧ State.reset.ckey = none ∧ State.reset.mulH = none ∧ State.reset.ctr = none

/-- Rule R250: hardware reset is the only way back to `Uninit`. -/
def Obligations.OnlyHardwareResetReturnsToUninit : Prop :=
  ∀ s t : State, step s = .next t → s.sst ≠ .uninit → t.sst = .uninit →
    ∃ rest, s.hostIn = .hardwareReset :: rest

/-! ## Invariants -/

/-- Rule R39: the invariants hold right after reset. -/
def Obligations.ResetMeetsSessionInv : Prop := SessionInv Config.attached State.reset

/-- Rule R39: every step from every state with the invariants gives a state with the invariants. -/
def Obligations.StepKeepsSessionInv : Prop :=
  ∀ s t : State, SessionInv Config.attached s → step s = .next t → SessionInv Config.attached t

/-- Rules R24 to R26, R29, R30: the session registers hold nothing while `sst = Uninit`, at reset and after every
step. -/
def Obligations.NoSessionRegisterInUninit : Prop :=
  NoSessionInUninit State.reset ∧
  ∀ s t : State, NoSessionInUninit s → step s = .next t → NoSessionInUninit t

/-! ## What every command does with its ports -/

/-- Rule R73: a command consumes all its `PLEN` payload bytes whatever its status, and nothing else that the host
presents. -/
def Obligations.CommandConsumesItsPayload : Prop :=
  ∀ (i : Instr) (s t : State), exec i s = .next t →
    payloadLength i ≤ s.payIn.length ∧ t.payIn = s.payIn.drop (payloadLength i) ∧ t.hostIn = s.hostIn

/-- U16 of `93_implementation_defined.md` (a payload shorter than `PLEN` leaves the block waiting, in the model a
fault: assumption log 6) and rules R57, R73: this is the one case where a command does not run to completion. -/
def Obligations.CommandStopsExactlyWhenStarved : Prop :=
  ∀ (i : Instr) (s : State),
    (s.payIn.length < payloadLength i → exec i s = .fault .payloadStarved) ∧
    (payloadLength i ≤ s.payIn.length → ∃ t, exec i s = .next t)

/-- Rules R70, R72: a command answers with exactly one response word, then its payload: `VAL = 0` and no payload on
an error, `RLEN = VAL` for the four commands that answer with one, no payload for the others. -/
def Obligations.CommandAnswersOnce : Prop :=
  ∀ (i : Instr) (s t : State), i.wellFormed = true → SessionInv Config.attached s → exec i s = .next t →
    ∃ (st : Status) (val : BitVec 56) (payload : List Byte),
      t.output = s.output ++ .word (responseWord st val) :: payload.map .byte ∧
      (st ≠ .ok → val = 0 ∧ payload = []) ∧
      (answersWithPayload i = false → payload = []) ∧
      (answersWithPayload i = true → payload.length = val.toNat)

/-- Rules R72, R221: the fields of a response word and the numbers of the statuses. -/
def Obligations.ResponseWordFields : Prop :=
  (∀ (st : Status) (val : BitVec 56),
    (responseWord st val).extractLsb' 56 8 = st.code ∧ (responseWord st val).extractLsb' 0 56 = val) ∧
  Status.code .ok = 0x00 ∧ Status.code .configurationError = 0x01 ∧ Status.code .stateError = 0x02 ∧
  Status.code .capacityError = 0x03 ∧ Status.code .authenticationError = 0x04 ∧ Status.code .illegalCommand = 0x05

/-! ## Session commands -/

/-- Rule R103: a valid `INIT`, from every state: what it writes, in full. -/
def Obligations.InitStartsSession : Prop :=
  ∀ (s : State) (enc : Bool) (key nonce a0 rest : List Byte) (master : Key),
    s.payIn = key ++ nonce ++ a0 ++ rest → nonce.length = 12 → a0.length ≤ Config.attached.aadMax →
    ((key.length = 16 ∧ master = .k16 (ofBytes 128 key)) ∨ (key.length = 32 ∧ master = .k32 (ofBytes 256 key))) →
    exec (.init enc key.length nonce.length a0.length) s = .next
      { s with
        mode := some (if enc then .encrypt else .decrypt)
        nonce := some (ofBytes 96 nonce)
        macKey := some (deriveMacKey Config.attached master (ofBytes 96 nonce))
        encKey := some (deriveEncKey Config.attached master (ofBytes 96 nonce))
        ckey := some (deriveEncKey Config.attached master (ofBytes 96 nonce))
        mulH := some (mulX (rev (deriveMacKey Config.attached master (ofBytes 96 nonce))))
        aad0 := a0
        aadBuf := a0
        msgBuf := []
        sst := .ready
        payIn := rest
        output := s.output ++ response .ok 0 [] }

/-- Rule R102: an `INIT` with a wrong length raises `ConfigurationError`; the payload is consumed and no state
changes at all. -/
def Obligations.InitRejectsWrongLengths : Prop :=
  ∀ (s : State) (enc : Bool) (klen nlen alen : Nat),
    klen + nlen + alen ≤ s.payIn.length →
    ¬ ((klen = 16 ∨ klen = 32) ∧ nlen = 12 ∧ alen ≤ Config.attached.aadMax) →
    exec (.init enc klen nlen alen) s = .next
      { s with payIn := s.payIn.drop (klen + nlen + alen), output := s.output ++ response .configurationError 0 [] }

/-- Rule R104: `AAD` appends in `Ready` when the buffer has room, and otherwise appends nothing and raises
`StateError`. -/
def Obligations.AadAppends : Prop :=
  ∀ (s : State) (data rest : List Byte), s.payIn = data ++ rest →
    (s.sst = .ready → s.aadBuf.length + data.length ≤ Config.attached.aadMax →
      exec (.aad data.length) s = .next
        { s with payIn := rest, aadBuf := s.aadBuf ++ data, output := s.output ++ response .ok 0 [] }) ∧
    (s.sst = .ready → Config.attached.aadMax < s.aadBuf.length + data.length →
      exec (.aad data.length) s = .next { s with payIn := rest, output := s.output ++ response .stateError 0 [] }) ∧
    (s.sst ≠ .ready →
      exec (.aad data.length) s = .next { s with payIn := rest, output := s.output ++ response .stateError 0 [] })

/-- Rule R105: `MSG` appends in `Ready` up to `MSG_MAX` bytes when encrypting and `MSG_MAX + 16` when decrypting, and
otherwise appends nothing and raises `StateError`. -/
def Obligations.MsgAppends : Prop :=
  ∀ (s : State) (mode : Mode) (data rest : List Byte) (lim : Nat), s.payIn = data ++ rest →
    lim = (if mode = .encrypt then Config.attached.msgMax else Config.attached.msgMax + 16) →
    (s.sst = .ready → s.mode = some mode → s.msgBuf.length + data.length ≤ lim →
      exec (.msg data.length) s = .next
        { s with payIn := rest, msgBuf := s.msgBuf ++ data, output := s.output ++ response .ok 0 [] }) ∧
    (s.sst = .ready → s.mode = some mode → lim < s.msgBuf.length + data.length →
      exec (.msg data.length) s = .next { s with payIn := rest, output := s.output ++ response .stateError 0 [] }) ∧
    (s.sst ≠ .ready →
      exec (.msg data.length) s = .next { s with payIn := rest, output := s.output ++ response .stateError 0 [] })

/-- Rule R106: `OSIZE` answers `n + 16` when encrypting and `max(0, n - 16)` when decrypting, modulo `2^56`, with
`n = pendingLen + len(msgBuf)`; in `Uninit` it raises `StateError`. It changes no state. -/
def Obligations.OsizeAnswersOutputSize : Prop :=
  ∀ (s : State) (p : Nat),
    (s.sst ≠ .uninit → s.mode = some .encrypt →
      exec (.osize p) s = .next
        { s with output := s.output ++ response .ok (BitVec.ofNat 56 (p + s.msgBuf.length + 16)) [] }) ∧
    (s.sst ≠ .uninit → s.mode = some .decrypt → 16 ≤ p + s.msgBuf.length →
      exec (.osize p) s = .next
        { s with output := s.output ++ response .ok (BitVec.ofNat 56 (p + s.msgBuf.length - 16)) [] }) ∧
    (s.sst ≠ .uninit → s.mode = some .decrypt → p + s.msgBuf.length < 16 →
      exec (.osize p) s = .next { s with output := s.output ++ response .ok 0 [] }) ∧
    (s.sst = .uninit →
      exec (.osize p) s = .next { s with output := s.output ++ response .stateError 0 [] })

/-- Rules R101, R107: `RESET` re-seeds the associated data, empties the message buffer and leads to `Ready`, keeping
mode, nonce and keys; in `Uninit` it does nothing. It has no error. -/
def Obligations.ResetReopensSession : Prop :=
  ∀ s : State,
    (s.sst ≠ .uninit →
      exec .reset s = .next
        { s with aadBuf := s.aad0, msgBuf := [], sst := .ready, output := s.output ++ response .ok 0 [] }) ∧
    (s.sst = .uninit → exec .reset s = .next { s with output := s.output ++ response .ok 0 [] })

/-- Rule R100: the session state after every command, from every state that meets the invariants. -/
def Obligations.SessionTransitions : Prop :=
  ∀ (s t : State), SessionInv Config.attached s →
    (∀ enc klen nlen alen, exec (.init enc klen nlen alen) s = .next t →
      t.sst = if (klen = 16 ∨ klen = 32) ∧ nlen = 12 ∧ alen ≤ Config.attached.aadMax then .ready else s.sst) ∧
    (∀ len, exec (.aad len) s = .next t → t.sst = s.sst) ∧
    (∀ len, exec (.msg len) s = .next t → t.sst = s.sst) ∧
    (∀ p, exec (.osize p) s = .next t → t.sst = s.sst) ∧
    (∀ ocap, exec (.final ocap) s = .next t → t.sst = if s.sst = .ready then .finalized else s.sst) ∧
    (exec .reset s = .next t → t.sst = if s.sst = .uninit then .uninit else .ready) ∧
    (∀ i, isUnit i = true → exec i s = .next t → t.sst = s.sst)

/-! ## `FINAL` -/

/-- Rules R153, R190, R193, R194, R195: an encrypting `FINAL` with enough room answers ciphertext then tag, and its
whole effect on the state. The POLYVAL result `p` is written out: from a zero accumulator, the blocks of the
associated data, the blocks of the message, the length block, each folded in, and the accumulator reversed. What it
leaves in `acc` and `ctr` stays open here: nothing may depend on it (decision D31, U13; assumption log 9). -/
def Obligations.FinalEncrypts : Prop :=
  ∀ (s : State) (ocap : Nat) (nonce : Nonce) (k : Key) (h p tag : Block) (ct : List Byte × Block),
    s.sst = .ready → s.mode = some .encrypt → s.nonce = some nonce → s.ckey = some k → s.mulH = some h →
    s.msgBuf.length + 16 ≤ ocap →
    p = rev ((blocks s.aadBuf ++ blocks s.msgBuf ++
        [ofBytes 128 (leBytes 8 (8 * s.aadBuf.length) ++ leBytes 8 (8 * s.msgBuf.length))]).foldl
          (fun a b => Config.attached.gfmul (a ^^^ rev b) h) 0) →
    tag = Config.attached.cipher k (tagPreimage p nonce) →
    ct = ctrXor Config.attached k (top1 tag) s.msgBuf →
    ∃ (acc : Block) (ctr : Option Block), exec (.final ocap) s = .next
      { s with
        acc := acc
        ctr := ctr
        aadBuf := []
        msgBuf := []
        sst := .finalized
        output := s.output ++ response .ok (BitVec.ofNat 56 (s.msgBuf.length + 16)) (ct.1 ++ bytesOf 16 tag) }

/-- Rules R153, R190, R193, R195, R196: a decrypting `FINAL` releases the candidate plaintext when the recomputed tag
equals the supplied one, and answers `AuthenticationError` with no payload byte when it does not. `p` is the POLYVAL
result over the associated data and the candidate, written out. What it leaves in `acc` and `ctr`
stays open here: nothing may depend on it (decision D31, U13; assumption log 9). -/
def Obligations.FinalDecrypts : Prop :=
  ∀ (s : State) (ocap : Nat) (nonce : Nonce) (k : Key) (h p : Block) (body supplied : List Byte)
    (cand : List Byte × Block),
    s.sst = .ready → s.mode = some .decrypt → s.nonce = some nonce → s.ckey = some k → s.mulH = some h →
    s.msgBuf = body ++ supplied → supplied.length = 16 → body.length ≤ ocap →
    cand = ctrXor Config.attached k (top1 (ofBytes 128 supplied)) body →
    p = rev ((blocks s.aadBuf ++ blocks cand.1 ++
        [ofBytes 128 (leBytes 8 (8 * s.aadBuf.length) ++ leBytes 8 (8 * cand.1.length))]).foldl
          (fun a b => Config.attached.gfmul (a ^^^ rev b) h) 0) →
    ∃ (acc : Block) (ctr : Option Block), exec (.final ocap) s = .next
      { s with
        acc := acc
        ctr := ctr
        aadBuf := []
        msgBuf := []
        sst := .finalized
        output := s.output ++
          if Config.attached.cipher k (tagPreimage p nonce) = ofBytes 128 supplied then
            response .ok (BitVec.ofNat 56 body.length) cand.1
          else response .authenticationError 0 [] }

/-- Rules R195, R198, R225: a short decrypt input, or too little room, is `CapacityError`: nothing is computed and
nothing output, and the session still ends `Finalized` with empty buffers. -/
def Obligations.FinalCapacityErrors : Prop :=
  ∀ (s : State) (ocap : Nat), s.sst = .ready →
    ((s.mode = some .encrypt ∧ ocap < s.msgBuf.length + 16) ∨
      (s.mode = some .decrypt ∧ s.msgBuf.length < 16) ∨
      (s.mode = some .decrypt ∧ 16 ≤ s.msgBuf.length ∧ ocap < s.msgBuf.length - 16)) →
    exec (.final ocap) s = .next
      { s with aadBuf := [], msgBuf := [], sst := .finalized,
               output := s.output ++ response .capacityError 0 [] }

/-- Rule R193 and conflict C7: a `FINAL` outside `Ready` raises `StateError` and changes nothing. -/
def Obligations.FinalOutsideReadyChangesNothing : Prop :=
  ∀ (s : State) (ocap : Nat), s.sst ≠ .ready →
    exec (.final ocap) s = .next { s with output := s.output ++ response .stateError 0 [] }

/-- Rules R36, R39, R153, R190, R196, R260: a decrypting `FINAL` delivers a payload byte only when the tag recomputed
from what it delivers, its POLYVAL result `p` written out, equals the supplied tag, so no plaintext leaves a failed
verification. -/
def Obligations.NoPlaintextWithoutVerifiedTag : Prop :=
  ∀ (s t : State) (ocap : Nat) (rw : Word64) (payload : List Byte),
    s.sst = .ready → s.mode = some .decrypt → exec (.final ocap) s = .next t →
    t.output = s.output ++ .word rw :: payload.map .byte → payload ≠ [] →
    ∃ nonce k h p, s.nonce = some nonce ∧ s.ckey = some k ∧ s.mulH = some h ∧
      p = rev ((blocks s.aadBuf ++ blocks payload ++
          [ofBytes 128 (leBytes 8 (8 * s.aadBuf.length) ++ leBytes 8 (8 * payload.length))]).foldl
            (fun a b => Config.attached.gfmul (a ^^^ rev b) h) 0) ∧
      bytesOf 16 (Config.attached.cipher k (tagPreimage p nonce)) = s.msgBuf.drop (s.msgBuf.length - 16)

/-- Rule R197, the round trip (which the spec derives from rules R190, R193 and R172), over whole sessions from any
two states: what an encrypting session outputs, a decrypting session with the same key, nonce and associated data
turns back into the message. -/
def Obligations.SessionRoundTrip : Prop :=
  ∀ (s : State) (key nonce a0 msg rest : List Byte) (ocap ocap' : Nat),
    (key.length = 16 ∨ key.length = 32) → nonce.length = 12 → a0.length ≤ Config.attached.aadMax →
    msg.length ≤ Config.attached.msgMax → msg.length + 16 ≤ ocap → msg.length ≤ ocap' →
    s.payIn = key ++ nonce ++ a0 ++ msg ++ rest →
    ∃ (s₁ s₂ s₃ : State) (out : List Byte),
      exec (.init true key.length nonce.length a0.length) s = .next s₁ ∧
      exec (.msg msg.length) s₁ = .next s₂ ∧ exec (.final ocap) s₂ = .next s₃ ∧
      out.length = msg.length + 16 ∧
      s₃.output = s.output ++ response .ok 0 [] ++ response .ok 0 []
        ++ response .ok (BitVec.ofNat 56 (msg.length + 16)) out ∧
      ∀ (u : State) (rest' : List Byte), u.payIn = key ++ nonce ++ a0 ++ out ++ rest' →
        ∃ u₁ u₂ u₃ : State,
          exec (.init false key.length nonce.length a0.length) u = .next u₁ ∧
          exec (.msg out.length) u₁ = .next u₂ ∧ exec (.final ocap') u₂ = .next u₃ ∧
          u₃.output = u.output ++ response .ok 0 [] ++ response .ok 0 []
            ++ response .ok (BitVec.ofNat 56 msg.length) msg

/-- Rules R53, R104, R105: the split of associated data over two `AAD` commands, or of a message over two `MSG`
commands, is invisible: it leaves what one command with all the bytes leaves, but for one more response. -/
def Obligations.SplitBufferingInvisible : Prop :=
  ∀ (s : State) (d₁ d₂ rest : List Byte), s.sst = .ready → s.payIn = d₁ ++ d₂ ++ rest →
    (s.aadBuf.length + d₁.length + d₂.length ≤ Config.attached.aadMax →
      ∃ t u : State, exec (.aad d₁.length) s = .next t ∧ exec (.aad d₂.length) t = .next u ∧
        exec (.aad (d₁ ++ d₂).length) s = .next { u with output := s.output ++ response .ok 0 [] }) ∧
    (s.msgBuf.length + d₁.length + d₂.length ≤ Config.attached.msgMax →
      ∃ t u : State, exec (.msg d₁.length) s = .next t ∧ exec (.msg d₂.length) t = .next u ∧
        exec (.msg (d₁ ++ d₂).length) s = .next { u with output := s.output ++ response .ok 0 [] })

/-! ## Unit commands -/

/-- Rule R79: outside `Uninit` a unit command consumes its payload, changes no state and is answered `StateError`. -/
def Obligations.UnitCommandsLockedInSession : Prop :=
  ∀ (i : Instr) (s : State), isUnit i = true → s.sst ≠ .uninit → payloadLength i ≤ s.payIn.length →
    exec i s = .next
      { s with payIn := s.payIn.drop (payloadLength i), output := s.output ++ response .stateError 0 [] }

/-- Rule R148: `PV.SEED` writes `mulH` only, with `SEEDH` of its operand; `acc` is not cleared. -/
def Obligations.PvSeedSeedsMultiplier : Prop :=
  ∀ (s : State) (k rest : List Byte), s.payIn = k ++ rest → k.length = 16 →
    (s.sst = .uninit →
      exec .pvSeed s = .next
        { s with payIn := rest, mulH := some (seedH (ofBytes 128 k)), output := s.output ++ response .ok 0 [] }) ∧
    (s.sst ≠ .uninit →
      exec .pvSeed s = .next { s with payIn := rest, output := s.output ++ response .stateError 0 [] })

/-- Rule R149: `PV.CLR` zeroes `acc`; `mulH` is not touched and need not be seeded. -/
def Obligations.PvClrClearsAccumulator : Prop :=
  ∀ s : State,
    (s.sst = .uninit → exec .pvClr s = .next { s with acc := 0, output := s.output ++ response .ok 0 [] }) ∧
    (s.sst ≠ .uninit → exec .pvClr s = .next { s with output := s.output ++ response .stateError 0 [] })

/-- Rules R145, R147, R151: `PV.BLK` folds one block into `acc`. -/
def Obligations.PvBlkFoldsBlock : Prop :=
  ∀ (s : State) (b rest : List Byte), s.payIn = b ++ rest → b.length = 16 →
    (∀ h, s.sst = .uninit → s.mulH = some h →
      exec .pvBlk s = .next
        { s with payIn := rest, acc := Config.attached.gfmul (s.acc ^^^ rev (ofBytes 128 b)) h,
                 output := s.output ++ response .ok 0 [] }) ∧
    (s.sst = .uninit → s.mulH = none →
      exec .pvBlk s = .next { s with payIn := rest, output := s.output ++ response .stateError 0 [] }) ∧
    (s.sst ≠ .uninit →
      exec .pvBlk s = .next { s with payIn := rest, output := s.output ++ response .stateError 0 [] })

/-- Rules R146, R147, R152: `PV.SEQ` absorbs a byte sequence of any length into `acc`. -/
def Obligations.PvSeqAbsorbsSequence : Prop :=
  ∀ (s : State) (data rest : List Byte), s.payIn = data ++ rest →
    (∀ h, s.sst = .uninit → s.mulH = some h →
      exec (.pvSeq data.length) s = .next
        { s with payIn := rest, acc := (blocks data).foldl (fun a b => Config.attached.gfmul (a ^^^ rev b) h) s.acc,
                 output := s.output ++ response .ok 0 [] }) ∧
    (s.sst = .uninit → s.mulH = none →
      exec (.pvSeq data.length) s = .next
        { s with payIn := rest, output := s.output ++ response .stateError 0 [] }) ∧
    (s.sst ≠ .uninit →
      exec (.pvSeq data.length) s = .next
        { s with payIn := rest, output := s.output ++ response .stateError 0 [] })

/-- Rules R147, R150, R154: `PV.LEN` folds the length block of two byte counts, associated data first, each bit
length modulo `2^64`. -/
def Obligations.PvLenFoldsLengthBlock : Prop :=
  ∀ (s : State) (a m : Nat) (rest : List Byte), a < 2 ^ 64 → m < 2 ^ 64 →
    s.payIn = leBytes 8 a ++ leBytes 8 m ++ rest →
    (∀ h, s.sst = .uninit → s.mulH = some h →
      exec .pvLen s = .next
        { s with payIn := rest,
                 acc := Config.attached.gfmul
                   (s.acc ^^^ rev (ofBytes 128 (leBytes 8 (8 * a) ++ leBytes 8 (8 * m)))) h,
                 output := s.output ++ response .ok 0 [] }) ∧
    (s.sst = .uninit → s.mulH = none →
      exec .pvLen s = .next { s with payIn := rest, output := s.output ++ response .stateError 0 [] }) ∧
    (s.sst ≠ .uninit →
      exec .pvLen s = .next { s with payIn := rest, output := s.output ++ response .stateError 0 [] })

/-- Rule R155: `PV.OUT` answers the 16 bytes of `REV(acc)` and changes no state. -/
def Obligations.PvOutReadsAccumulator : Prop :=
  ∀ s : State,
    (s.sst = .uninit →
      exec .pvOut s = .next { s with output := s.output ++ response .ok 16 (bytesOf 16 (rev s.acc)) }) ∧
    (s.sst ≠ .uninit → exec .pvOut s = .next { s with output := s.output ++ response .stateError 0 [] })

/-- Rule R176: `KS.KEY` keys the cipher with 16 or 32 bytes and raises `ConfigurationError` at every other length. -/
def Obligations.KsKeyKeysCipher : Prop :=
  ∀ (s : State) (key rest : List Byte), s.payIn = key ++ rest →
    (s.sst = .uninit → key.length = 16 →
      exec (.ksKey key.length) s = .next
        { s with payIn := rest, ckey := some (.k16 (ofBytes 128 key)), output := s.output ++ response .ok 0 [] }) ∧
    (s.sst = .uninit → key.length = 32 →
      exec (.ksKey key.length) s = .next
        { s with payIn := rest, ckey := some (.k32 (ofBytes 256 key)), output := s.output ++ response .ok 0 [] }) ∧
    (s.sst = .uninit → key.length ≠ 16 → key.length ≠ 32 →
      exec (.ksKey key.length) s = .next
        { s with payIn := rest, output := s.output ++ response .configurationError 0 [] }) ∧
    (s.sst ≠ .uninit →
      exec (.ksKey key.length) s = .next { s with payIn := rest, output := s.output ++ response .stateError 0 [] })

/-- Rule R177: `KS.LOAD` loads the counter with the tag, its top bit forced to 1; `ckey` need not be set. -/
def Obligations.KsLoadLoadsCounter : Prop :=
  ∀ (s : State) (t rest : List Byte), s.payIn = t ++ rest → t.length = 16 →
    (s.sst = .uninit →
      exec .ksLoad s = .next
        { s with payIn := rest, ctr := some (top1 (ofBytes 128 t)), output := s.output ++ response .ok 0 [] }) ∧
    (s.sst ≠ .uninit →
      exec .ksLoad s = .next { s with payIn := rest, output := s.output ++ response .stateError 0 [] })

/-- Rules R172, R175, R178: `KS.RUN` answers its input XORed with the keystream, as many bytes as it took, and steps
the counter. -/
def Obligations.KsRunEncipherStream : Prop :=
  ∀ (s : State) (data rest : List Byte), s.payIn = data ++ rest →
    (∀ k c, s.sst = .uninit → s.ckey = some k → s.ctr = some c →
      exec (.ksRun data.length) s = .next
        { s with payIn := rest, ctr := some (ctrXor Config.attached k c data).2,
                 output := s.output ++
                   response .ok (BitVec.ofNat 56 data.length) (ctrXor Config.attached k c data).1 }) ∧
    (s.sst = .uninit → (s.ckey = none ∨ s.ctr = none) →
      exec (.ksRun data.length) s = .next
        { s with payIn := rest, output := s.output ++ response .stateError 0 [] }) ∧
    (s.sst ≠ .uninit →
      exec (.ksRun data.length) s = .next
        { s with payIn := rest, output := s.output ++ response .stateError 0 [] })

/-- Rules R175, R179: `KS.CTR` answers the 16 bytes of the counter and changes no state. -/
def Obligations.KsCtrReadsCounter : Prop :=
  ∀ s : State,
    (∀ c, s.sst = .uninit → s.ctr = some c →
      exec .ksCtr s = .next { s with output := s.output ++ response .ok 16 (bytesOf 16 c) }) ∧
    (s.sst = .uninit → s.ctr = none →
      exec .ksCtr s = .next { s with output := s.output ++ response .stateError 0 [] }) ∧
    (s.sst ≠ .uninit → exec .ksCtr s = .next { s with output := s.output ++ response .stateError 0 [] })

/-- Rules R191, R192: `TC.CMP` answers 1 exactly when the two tags are equal, and 0 otherwise; it writes no state. -/
def Obligations.TcCmpComparesTags : Prop :=
  ∀ (s : State) (a b rest : List Byte), s.payIn = a ++ b ++ rest → a.length = 16 → b.length = 16 →
    (s.sst = .uninit →
      exec .tcCmp s = .next
        { s with payIn := rest, output := s.output ++ response .ok (if a = b then 1 else 0) [] }) ∧
    (s.sst ≠ .uninit →
      exec .tcCmp s = .next { s with payIn := rest, output := s.output ++ response .stateError 0 [] })

/-! ## The functions -/

/-- Rule R140: `REV(b)[i] = b[15 - i]`, and `REV(REV(b)) = b`. -/
def Obligations.RevReversesBytes : Prop :=
  ∀ b : Block, (∀ i, i < 16 → byteAt (rev b) i = byteAt b (15 - i)) ∧ rev (rev b) = b

/-- Rule R141, the pseudocode of `MULX` byte by byte (a definition the spec marks as from general knowledge; assumption
log 12): byte `i` is `(v[i] >> 1) | c` with `c` the bit that fell off
the byte before, and `0xE1` is XORed into byte 0 when a bit falls off byte 15. -/
def Obligations.MulXBytewise : Prop :=
  ∀ v : Block,
    byteAt (mulX v) 0 = (byteAt v 0 >>> 1) ^^^ (if byteAt v 15 &&& 1 = 1 then 0xE1 else 0) ∧
    ∀ i, 1 ≤ i → i < 16 →
      byteAt (mulX v) i = (byteAt v i >>> 1) ||| (if byteAt v (i - 1) &&& 1 = 1 then 0x80 else 0)

/-- Rule R143 (a reference instance the spec marks as from general knowledge; assumption log 12): the multiplier is
commutative and bilinear over XOR, its zero is `00*16` and its one is `80 00*15`. -/
def Obligations.GmulFieldLaws : Prop :=
  (∀ x h : Block, gmul x h = gmul h x) ∧
  (∀ x y h : Block, gmul (x ^^^ y) h = gmul x h ^^^ gmul y h) ∧
  (∀ x h g : Block, gmul x (h ^^^ g) = gmul x h ^^^ gmul x g) ∧
  (∀ x : Block, gmul x 0 = 0) ∧
  (∀ x : Block, gmul x 0x80000000000000000000000000000000 = x)

/-- Rule R156 (a cross-check the spec marks as from general knowledge; assumption log 12): with the reference
multiplier, one fold is `dot(a, k) = a · k · x^(-128)` in the field defined by `x^128 + x^127 + x^126 + x^121 + 1`:
multiplied 128 times by `x`, the accumulator after the fold is the product of `acc ^ REV(b)` and `REV(k)`, bit `i` of
each being the coefficient of `x^i`. -/
def Obligations.ReferenceFoldIsPolyvalDot : Prop :=
  ∀ (c : Config) (k acc b : Block), c.gfmul = gmul →
    polyMulX^[128] (fold c (seedH k) acc b) = polyMul (acc ^^^ rev b) (rev k)

/-- Rule R157, linearity: with the reference multiplier and a fixed seed, folding the XOR of two block lists of equal
length gives the XOR of the two results. -/
def Obligations.ReferenceHashIsLinear : Prop :=
  ∀ (c : Config) (h a₁ a₂ : Block) (bs₁ bs₂ : List Block), c.gfmul = gmul → bs₁.length = bs₂.length →
    (List.zipWith (· ^^^ ·) bs₁ bs₂).foldl (fold c h) (a₁ ^^^ a₂)
      = bs₁.foldl (fold c h) a₁ ^^^ bs₂.foldl (fold c h) a₂

/-- Rules R144, R146: absorbing two sequences one after the other equals absorbing their concatenation when the first
is a whole number of blocks; `BLOCKS(s)` has `ceil(len(s) / 16)` blocks, and byte `r` of its block `j` is `s[16 j + r]`
where `s` has that byte, and zero behind the end of `s`. -/
def Obligations.AbsorbSplitsAtBlocks : Prop :=
  ∀ (c : Config) (h acc : Block) (s₁ s₂ : List Byte),
    (blocks s₂).length = (s₂.length + 15) / 16 ∧
    (∀ (j r : Nat) (b : Block), (blocks s₂)[j]? = some b → r < 16 →
      byteAt b r = if hr : 16 * j + r < s₂.length then s₂[16 * j + r] else 0) ∧
    (s₁.length % 16 = 0 → absorb c h acc (s₁ ++ s₂) = absorb c h (absorb c h acc s₁) s₂)

/-- Rule R150: the length block holds the associated-data bit length first and the message bit length second, each
little-endian in 8 bytes and modulo `2^64`. -/
def Obligations.LenBlockHoldsBitLengths : Prop :=
  ∀ a m : Nat,
    leNat ((bytesOf 16 (lenBlock a m)).take 8) = 8 * a % 2 ^ 64 ∧
    leNat ((bytesOf 16 (lenBlock a m)).drop 8) = 8 * m % 2 ^ 64

/-- Rules R12, R170: `TOP1` sets bit 7 of byte 15 and leaves every other byte as it was. -/
def Obligations.Top1ForcesTopBit : Prop :=
  ∀ t : Block, (∀ i, i < 15 → byteAt (top1 t) i = byteAt t i) ∧ byteAt (top1 t) 15 = byteAt t 15 ||| 0x80

/-- Rule R171: `INC32` adds 1 to the little-endian number in the low four bytes, wrapping within 32 bits, and never
changes bytes 4 to 15. -/
def Obligations.Inc32WrapsInLowFourBytes : Prop :=
  ∀ c : Block,
    leNat ((bytesOf 16 (inc32 c)).take 4) = (leNat ((bytesOf 16 c).take 4) + 1) % 2 ^ 32 ∧
    (bytesOf 16 (inc32 c)).drop 4 = (bytesOf 16 c).drop 4

/-- Rules R172, R173: byte `16 j + r` of the keystream pass is the input byte XORed with byte `r` of the cipher of the
counter after `j` steps; the output is as long as the input; and the counter has stepped `ceil(L / 16)` times. -/
def Obligations.CtrXorBytes : Prop :=
  ∀ (c : Config) (k : Key) (ctr : Block) (data : List Byte),
    (ctrXor c k ctr data).1.length = data.length ∧
    (ctrXor c k ctr data).2 = inc32^[(data.length + 15) / 16] ctr ∧
    ∀ j r, r < 16 → 16 * j + r < data.length →
      (ctrXor c k ctr data).1[16 * j + r]? =
        data[16 * j + r]?.map (· ^^^ byteAt (c.cipher k (inc32^[j] ctr)) r)

/-- Rule R172: applying the keystream pass twice from the same counter and key returns the input. -/
def Obligations.CtrXorTwiceReturnsInput : Prop :=
  ∀ (c : Config) (k : Key) (ctr : Block) (data : List Byte),
    (ctrXor c k ctr (ctrXor c k ctr data).1).1 = data

/-- Rules R130, R131: the scratch block of the `i`-th encipherment is `i ‖ 0^3 ‖ nonce`, and the derived keys are
the first 8 bytes of the cipher's outputs, in order. -/
def Obligations.KeyDerivationSlices : Prop :=
  ∀ (c : Config) (master : Key) (nonce : Nonce) (half : Nat → List Byte),
    (∀ i, half i = (bytesOf 16 (c.cipher master (BitVec.ofNat 8 i ++ 0#24 ++ nonce))).take 8) →
    bytesOf 16 (deriveMacKey c master nonce) = half 0 ++ half 1 ∧
    (∀ k, master = .k16 k → ∃ e, deriveEncKey c master nonce = .k16 e ∧ bytesOf 16 e = half 2 ++ half 3) ∧
    (∀ k, master = .k32 k → ∃ e, deriveEncKey c master nonce = .k32 e ∧
      bytesOf 32 e = half 2 ++ half 3 ++ half 4 ++ half 5)

/-- Rule R190: the tag pre-image is the POLYVAL result with the nonce XORed into bytes 0 to 11, bytes 12 to 14 as they
were, and the top bit of byte 15 cleared. -/
def Obligations.TagPreimageBytes : Prop :=
  ∀ (p : Block) (nonce : Nonce),
    (bytesOf 16 (tagPreimage p nonce)).take 12 = xorBytes ((bytesOf 16 p).take 12) (bytesOf 12 nonce) ∧
    (∀ i, 12 ≤ i → i < 15 → byteAt (tagPreimage p nonce) i = byteAt p i) ∧
    byteAt (tagPreimage p nonce) 15 = byteAt p 15 &&& 0x7F

/-! ## Secrecy -/

/-- Rules R31, R32, R261, U13: in a session nothing the block answers depends on what `acc` and `ctr` hold: two
states that differ only there answer every command alike, and still differ only there. -/
def Obligations.UnitRegistersUnobservableInSession : Prop :=
  ∀ (i : Instr) (s t s' : State), SameButUnitRegisters s t → s.sst ≠ .uninit → exec i s = .next s' →
    ∃ t', exec i t = .next t' ∧ SameButUnitRegisters s' t' ∧ t'.output = s'.output ∧ s'.sst ≠ .uninit

/-- Rule R40: in a session no command but `FINAL` answers anything that depends on the keys, the multiplier's seed,
the nonce or the unit registers. -/
def Obligations.SecretsUnobservableInSession : Prop :=
  ∀ (i : Instr) (s t s' : State), SameButSecrets s t → s.sst ≠ .uninit → isFinal i = false → exec i s = .next s' →
    ∃ t', exec i t = .next t' ∧ SameButSecrets s' t' ∧ t'.output = s'.output

/-- Rules R29, R30, R40: `macKey` and `encKey` are read by no command: in any session state, neither what a command
answers nor any other register it leaves depends on what they hold. -/
def Obligations.DerivedKeyRegistersNeverAnswered : Prop :=
  ∀ (i : Instr) (s s' : State) (mac : Option Block) (enc : Option Key), exec i s = .next s' →
    ∃ t', exec i { s with macKey := mac, encKey := enc } = .next t' ∧
      t' = { s' with macKey := t'.macKey, encKey := t'.encKey }

/-! ## Byte order -/

/-- Rules R11, R13, R52: byte `i` of the little-endian form of `v` is `(v >> 8i) & 0xff`, reading it back gives `v`
modulo `2^(8n)`, and byte `i` of the block made of 16 bytes is the `i`-th of them. -/
def Obligations.ByteOrderOfSequences : Prop :=
  (∀ n v i : Nat, i < n → (leBytes n v)[i]? = some (BitVec.ofNat 8 (v / 2 ^ (8 * i) % 2 ^ 8))) ∧
  (∀ n v : Nat, (leBytes n v).length = n ∧ leNat (leBytes n v) = v % 2 ^ (8 * n)) ∧
  (∀ (s : List Byte) (i : Nat), s.length = 16 → i < 16 → s[i]? = some (byteAt (ofBytes 128 s) i)) ∧
  (∀ (b : Block) (i : Nat), i < 16 → (bytesOf 16 b)[i]? = some (byteAt b i))
end

