-- ==== Sys2Proof/Laws/Bytes.lean ====
section
/-! SUPPORT. The byte-order helpers: every bit of `ofBytes`, every byte of `bytesOf`, and that the two are inverse. -/

namespace Sys2Proof.Machine

@[simp] theorem bytesOf_length (n : Nat) {w : Nat} (v : BitVec w) : (bytesOf n v).length = n := by
  simp [bytesOf]

theorem bytesOf_getElem (n : Nat) {w : Nat} (v : BitVec w) (i : Nat) (h : i < (bytesOf n v).length) :
    (bytesOf n v)[i] = v.extractLsb' (8 * (n - 1 - i)) 8 := by
  simp [bytesOf]

theorem bytesOf16_getElem (b : Block) (i : Nat) (h : i < (bytesOf 16 b).length) :
    (bytesOf 16 b)[i] = byteAt b i := by
  simp [bytesOf, byteAt]

@[simp] theorem ofBytes_nil (w : Nat) : ofBytes w [] = 0 := rfl

theorem ofBytes_concat (w : Nat) (bs : List Byte) (b : Byte) :
    ofBytes w (bs ++ [b]) = (ofBytes w bs <<< 8) ||| b.setWidth w := by
  simp [ofBytes]

/-- Bit `j` of `ofBytes` is bit `j % 8` of the byte that stands `j / 8` places from the end. -/
theorem getLsbD_ofBytes (w : Nat) (bs : List Byte) (j : Nat) :
    (ofBytes w bs).getLsbD j = (decide (j < w) && (bs.reverse[j / 8]?.getD 0).getLsbD (j % 8)) := by
  induction bs using List.reverseRecOn generalizing j with
  | nil => simp
  | append_singleton bs b ih =>
    rw [ofBytes_concat]
    simp only [BitVec.getLsbD_or, BitVec.getLsbD_shiftLeft, BitVec.getLsbD_setWidth, ih, List.reverse_append,
      List.reverse_cons, List.reverse_nil, List.nil_append, List.singleton_append]
    by_cases hw : j < w
    · by_cases h8 : j < 8
      · have : j / 8 = 0 := by omega
        have hm : j % 8 = j := by omega
        simp [hw, h8, this, hm]
      · have hd : j / 8 = (j - 8) / 8 + 1 := by omega
        have hm : j % 8 = (j - 8) % 8 := by omega
        have hb : b.getLsbD j = false := BitVec.getLsbD_of_ge _ _ (by omega)
        have hlt : j - 8 < w := by omega
        simp [hw, h8, hd, hm, hb, hlt]
    · simp [hw]

theorem getLsbD_byteAt (b : Block) (i k : Nat) (hk : k < 8) :
    (byteAt b i).getLsbD k = b.getLsbD (8 * (15 - i) + k) := by
  simp [byteAt, hk]

/-- `n` bytes give back the list they were made of. -/
theorem bytesOf_ofBytes (w : Nat) (bs : List Byte) (h : 8 * bs.length ≤ w) :
    bytesOf bs.length (ofBytes w bs) = bs := by
  apply List.ext_getElem (by simp)
  intro i h₁ h₂
  rw [bytesOf_getElem]
  apply BitVec.eq_of_getLsbD_eq
  intro k hk
  have hd : (8 * (bs.length - 1 - i) + k) / 8 = bs.length - 1 - i := by omega
  have hm : (8 * (bs.length - 1 - i) + k) % 8 = k := by omega
  have hi : bs.length - 1 - (bs.length - 1 - i) = i := by omega
  have hlt : 8 * (bs.length - 1 - i) + k < w := by omega
  rw [BitVec.getLsbD_extractLsb', getLsbD_ofBytes, hd, hm,
    List.getElem?_reverse (by omega), hi, List.getElem?_eq_getElem h₂]
  simp [hk, hlt]

/-- A value of `n` bytes is given back by its bytes. -/
theorem ofBytes_bytesOf (n : Nat) (v : BitVec (8 * n)) : ofBytes (8 * n) (bytesOf n v) = v := by
  apply BitVec.eq_of_getLsbD_eq
  intro j hj
  have hn : j / 8 < n := by omega
  rw [getLsbD_ofBytes, List.getElem?_reverse (by simpa using hn), List.getElem?_eq_getElem (by simp; omega),
    Option.getD_some, bytesOf_getElem, BitVec.getLsbD_extractLsb']
  have : 8 * (n - 1 - ((bytesOf n v).length - 1 - j / 8)) + j % 8 = j := by simp; omega
  rw [this]
  simp [hj, Nat.mod_lt]

theorem ofBytes_bytesOf_block (b : Block) : ofBytes 128 (bytesOf 16 b) = b := ofBytes_bytesOf 16 b

theorem bytesOf_ofBytes_block (bs : List Byte) (h : bs.length = 16) : bytesOf 16 (ofBytes 128 bs) = bs := by
  simpa [h] using bytesOf_ofBytes 128 bs (by omega)

/-- Two blocks with the same 16 bytes are equal. -/
theorem block_ext {a b : Block} (h : ∀ i, i < 16 → byteAt a i = byteAt b i) : a = b := by
  have hbytes : bytesOf 16 a = bytesOf 16 b := by
    apply List.ext_getElem (by simp)
    intro i h₁ h₂
    rw [bytesOf16_getElem, bytesOf16_getElem]
    exact h i (by simpa using h₁)
  have := congrArg (ofBytes 128) hbytes
  rwa [ofBytes_bytesOf_block, ofBytes_bytesOf_block] at this

@[simp] theorem leBytes_length (n v : Nat) : (leBytes n v).length = n := by
  induction n generalizing v with
  | zero => rfl
  | succ n ih => simp [leBytes, ih]

/-- `LE` bytes read back as the number they were made of, modulo `2^(8n)`. -/
theorem leNat_leBytes (n v : Nat) : leNat (leBytes n v) = v % 2 ^ (8 * n) := by
  induction n generalizing v with
  | zero => simp [leBytes, leNat, Nat.mod_one]
  | succ n ih =>
    rw [leBytes, leNat, ih, BitVec.toNat_ofNat, show 8 * (n + 1) = 8 + 8 * n from by omega, Nat.pow_add,
      Nat.mod_mul]

theorem leBytes_leNat (bs : List Byte) : leBytes bs.length (leNat bs) = bs := by
  induction bs with
  | nil => rfl
  | cons b bs ih =>
    have hdiv : (b.toNat + 2 ^ 8 * leNat bs) / 2 ^ 8 = leNat bs := by have := b.isLt; omega
    have hlow : BitVec.ofNat 8 (b.toNat + 2 ^ 8 * leNat bs) = b := by
      apply BitVec.eq_of_toNat_eq
      have := b.isLt
      simp only [BitVec.toNat_ofNat]
      omega
    rw [List.length_cons, leBytes, leNat, hdiv, ih, hlow]

@[simp] theorem xorBytes_length (a b : List Byte) : (xorBytes a b).length = min a.length b.length := by
  simp [xorBytes]

/-- XOR with the same bytes twice gives the bytes back, cut to the shorter length. -/
theorem xorBytes_xorBytes (a b : List Byte) (h : a.length ≤ b.length) : xorBytes (xorBytes a b) b = a := by
  apply List.ext_getElem (by simp [h])
  intro i h₁ h₂
  simp [xorBytes]

@[simp] theorem pieces_length (n : Nat) (s : List Byte) : (pieces n s).length = n := by
  induction n generalizing s with
  | zero => rfl
  | succ n ih => simp [pieces, ih]

/-- The pieces of a sequence, joined, are the sequence. -/
theorem pieces_flatten (n : Nat) (s : List Byte) (h : s.length ≤ 16 * n) : (pieces n s).flatten = s := by
  induction n generalizing s with
  | zero => simp_all [pieces]
  | succ n ih =>
    rw [pieces, List.flatten_cons, ih _ (by simp; omega), List.take_append_drop]

theorem piecesOf_flatten (s : List Byte) : (piecesOf s).flatten = s :=
  pieces_flatten _ s (by unfold blockCount; omega)

/-- Every piece has at most 16 bytes. -/
theorem length_of_mem_pieces {n : Nat} {s p : List Byte} (h : p ∈ pieces n s) : p.length ≤ 16 := by
  induction n generalizing s with
  | zero => simp [pieces] at h
  | succ n ih =>
    rw [pieces, List.mem_cons] at h
    rcases h with rfl | h
    · simp
    · exact ih h

end Sys2Proof.Machine
end

