-- ==== Sys2Proof/Laws/Encoding.lean ====
section
/-! SUPPORT. The fields of the words the model builds: command words, the argument of `INIT`, response words. -/

namespace Sys2Proof

open Sys2Proof.Machine

/-- A command word's opcode (rule R71). -/
@[simp] theorem opcOf_commandWord (opc : BitVec 8) (arg : BitVec 56) : opcOf (commandWord opc arg) = opc := by
  apply BitVec.eq_of_getLsbD_eq
  intro i hi
  have happ := BitVec.getLsbD_append (x := opc) (y := arg) (i := 56 + i)
  rw [opcOf, BitVec.getLsbD_extractLsb']
  exact (congrArg _ happ).trans (by simp [hi])

/-- A command word's argument (rule R71). -/
@[simp] theorem argOf_commandWord (opc : BitVec 8) (arg : BitVec 56) : argOf (commandWord opc arg) = arg := by
  apply BitVec.eq_of_getLsbD_eq
  intro i hi
  have happ := BitVec.getLsbD_append (x := opc) (y := arg) (i := i)
  rw [argOf, BitVec.getLsbD_extractLsb', Nat.zero_add]
  exact (congrArg _ happ).trans (by simp [hi])

/-- Every word is the word of its opcode and its argument (rule R71). -/
theorem commandWord_opcOf_argOf (w : Word64) : commandWord (opcOf w) (argOf w) = w := by
  apply BitVec.eq_of_getLsbD_eq
  intro i hi
  have happ := BitVec.getLsbD_append (x := opcOf w) (y := argOf w) (i := i)
  refine happ.trans ?_
  by_cases h : i < 56
  · simp [h, argOf]
  · simp [h, opcOf, show i - 56 < 8 from by omega, show 56 + (i - 56) = i from by omega]

/-- A response word, bit by bit (rule R72). -/
theorem getLsbD_responseWord (st : Status) (val : BitVec 56) (i : Nat) :
    (responseWord st val).getLsbD i = if i < 56 then val.getLsbD i else st.code.getLsbD (i - 56) := by
  have happ := BitVec.getLsbD_append (x := st.code) (y := val) (i := i)
  refine happ.trans ?_
  by_cases h : i < 56 <;> simp [h]

end Sys2Proof
end

