-- ==== Sys2Proof/Laws/State.lean ====
section
/-! SUPPORT. The small lemmas of the named state updates: what each field is after each of them. -/

namespace Sys2Proof.Machine

variable (s : State)

/-! ### `respond` -/

@[simp] theorem respond_sst (st : Status) (val : BitVec 56) (payload : List Byte) :
    (respond st val payload s).sst = s.sst := rfl
@[simp] theorem respond_mode (st : Status) (val : BitVec 56) (payload : List Byte) :
    (respond st val payload s).mode = s.mode := rfl
@[simp] theorem respond_nonce (st : Status) (val : BitVec 56) (payload : List Byte) :
    (respond st val payload s).nonce = s.nonce := rfl
@[simp] theorem respond_aad0 (st : Status) (val : BitVec 56) (payload : List Byte) :
    (respond st val payload s).aad0 = s.aad0 := rfl
@[simp] theorem respond_aadBuf (st : Status) (val : BitVec 56) (payload : List Byte) :
    (respond st val payload s).aadBuf = s.aadBuf := rfl
@[simp] theorem respond_msgBuf (st : Status) (val : BitVec 56) (payload : List Byte) :
    (respond st val payload s).msgBuf = s.msgBuf := rfl
@[simp] theorem respond_macKey (st : Status) (val : BitVec 56) (payload : List Byte) :
    (respond st val payload s).macKey = s.macKey := rfl
@[simp] theorem respond_encKey (st : Status) (val : BitVec 56) (payload : List Byte) :
    (respond st val payload s).encKey = s.encKey := rfl
@[simp] theorem respond_acc (st : Status) (val : BitVec 56) (payload : List Byte) :
    (respond st val payload s).acc = s.acc := rfl
@[simp] theorem respond_ctr (st : Status) (val : BitVec 56) (payload : List Byte) :
    (respond st val payload s).ctr = s.ctr := rfl
@[simp] theorem respond_ckey (st : Status) (val : BitVec 56) (payload : List Byte) :
    (respond st val payload s).ckey = s.ckey := rfl
@[simp] theorem respond_mulH (st : Status) (val : BitVec 56) (payload : List Byte) :
    (respond st val payload s).mulH = s.mulH := rfl
@[simp] theorem respond_hostIn (st : Status) (val : BitVec 56) (payload : List Byte) :
    (respond st val payload s).hostIn = s.hostIn := rfl
@[simp] theorem respond_payIn (st : Status) (val : BitVec 56) (payload : List Byte) :
    (respond st val payload s).payIn = s.payIn := rfl
@[simp] theorem respond_output (st : Status) (val : BitVec 56) (payload : List Byte) :
    (respond st val payload s).output = s.output ++ response st val payload := rfl

/-! ### `respondOk` -/

@[simp] theorem respondOk_sst (val : Nat) (payload : List Byte) : (respondOk val payload s).sst = s.sst := rfl
@[simp] theorem respondOk_mode (val : Nat) (payload : List Byte) : (respondOk val payload s).mode = s.mode := rfl
@[simp] theorem respondOk_nonce (val : Nat) (payload : List Byte) : (respondOk val payload s).nonce = s.nonce := rfl
@[simp] theorem respondOk_aad0 (val : Nat) (payload : List Byte) : (respondOk val payload s).aad0 = s.aad0 := rfl
@[simp] theorem respondOk_aadBuf (val : Nat) (payload : List Byte) :
    (respondOk val payload s).aadBuf = s.aadBuf := rfl
@[simp] theorem respondOk_msgBuf (val : Nat) (payload : List Byte) :
    (respondOk val payload s).msgBuf = s.msgBuf := rfl
@[simp] theorem respondOk_macKey (val : Nat) (payload : List Byte) :
    (respondOk val payload s).macKey = s.macKey := rfl
@[simp] theorem respondOk_encKey (val : Nat) (payload : List Byte) :
    (respondOk val payload s).encKey = s.encKey := rfl
@[simp] theorem respondOk_acc (val : Nat) (payload : List Byte) : (respondOk val payload s).acc = s.acc := rfl
@[simp] theorem respondOk_ctr (val : Nat) (payload : List Byte) : (respondOk val payload s).ctr = s.ctr := rfl
@[simp] theorem respondOk_ckey (val : Nat) (payload : List Byte) : (respondOk val payload s).ckey = s.ckey := rfl
@[simp] theorem respondOk_mulH (val : Nat) (payload : List Byte) : (respondOk val payload s).mulH = s.mulH := rfl
@[simp] theorem respondOk_hostIn (val : Nat) (payload : List Byte) :
    (respondOk val payload s).hostIn = s.hostIn := rfl
@[simp] theorem respondOk_payIn (val : Nat) (payload : List Byte) : (respondOk val payload s).payIn = s.payIn := rfl
@[simp] theorem respondOk_output (val : Nat) (payload : List Byte) :
    (respondOk val payload s).output = s.output ++ response .ok (BitVec.ofNat 56 val) payload := rfl

/-! ### `raise` -/

@[simp] theorem raise_sst (st : Status) : (raise st s).sst = s.sst := rfl
@[simp] theorem raise_mode (st : Status) : (raise st s).mode = s.mode := rfl
@[simp] theorem raise_nonce (st : Status) : (raise st s).nonce = s.nonce := rfl
@[simp] theorem raise_aad0 (st : Status) : (raise st s).aad0 = s.aad0 := rfl
@[simp] theorem raise_aadBuf (st : Status) : (raise st s).aadBuf = s.aadBuf := rfl
@[simp] theorem raise_msgBuf (st : Status) : (raise st s).msgBuf = s.msgBuf := rfl
@[simp] theorem raise_macKey (st : Status) : (raise st s).macKey = s.macKey := rfl
@[simp] theorem raise_encKey (st : Status) : (raise st s).encKey = s.encKey := rfl
@[simp] theorem raise_acc (st : Status) : (raise st s).acc = s.acc := rfl
@[simp] theorem raise_ctr (st : Status) : (raise st s).ctr = s.ctr := rfl
@[simp] theorem raise_ckey (st : Status) : (raise st s).ckey = s.ckey := rfl
@[simp] theorem raise_mulH (st : Status) : (raise st s).mulH = s.mulH := rfl
@[simp] theorem raise_hostIn (st : Status) : (raise st s).hostIn = s.hostIn := rfl
@[simp] theorem raise_payIn (st : Status) : (raise st s).payIn = s.payIn := rfl
@[simp] theorem raise_output (st : Status) : (raise st s).output = s.output ++ response st 0 [] := rfl

/-! ### `appendAad` -/

@[simp] theorem appendAad_sst (data : List Byte) : (appendAad data s).sst = s.sst := rfl
@[simp] theorem appendAad_mode (data : List Byte) : (appendAad data s).mode = s.mode := rfl
@[simp] theorem appendAad_nonce (data : List Byte) : (appendAad data s).nonce = s.nonce := rfl
@[simp] theorem appendAad_aad0 (data : List Byte) : (appendAad data s).aad0 = s.aad0 := rfl
@[simp] theorem appendAad_aadBuf (data : List Byte) : (appendAad data s).aadBuf = s.aadBuf ++ data := rfl
@[simp] theorem appendAad_msgBuf (data : List Byte) : (appendAad data s).msgBuf = s.msgBuf := rfl
@[simp] theorem appendAad_macKey (data : List Byte) : (appendAad data s).macKey = s.macKey := rfl
@[simp] theorem appendAad_encKey (data : List Byte) : (appendAad data s).encKey = s.encKey := rfl
@[simp] theorem appendAad_acc (data : List Byte) : (appendAad data s).acc = s.acc := rfl
@[simp] theorem appendAad_ctr (data : List Byte) : (appendAad data s).ctr = s.ctr := rfl
@[simp] theorem appendAad_ckey (data : List Byte) : (appendAad data s).ckey = s.ckey := rfl
@[simp] theorem appendAad_mulH (data : List Byte) : (appendAad data s).mulH = s.mulH := rfl
@[simp] theorem appendAad_hostIn (data : List Byte) : (appendAad data s).hostIn = s.hostIn := rfl
@[simp] theorem appendAad_payIn (data : List Byte) : (appendAad data s).payIn = s.payIn := rfl
@[simp] theorem appendAad_output (data : List Byte) : (appendAad data s).output = s.output := rfl

/-! ### `appendMsg` -/

@[simp] theorem appendMsg_sst (data : List Byte) : (appendMsg data s).sst = s.sst := rfl
@[simp] theorem appendMsg_mode (data : List Byte) : (appendMsg data s).mode = s.mode := rfl
@[simp] theorem appendMsg_nonce (data : List Byte) : (appendMsg data s).nonce = s.nonce := rfl
@[simp] theorem appendMsg_aad0 (data : List Byte) : (appendMsg data s).aad0 = s.aad0 := rfl
@[simp] theorem appendMsg_aadBuf (data : List Byte) : (appendMsg data s).aadBuf = s.aadBuf := rfl
@[simp] theorem appendMsg_msgBuf (data : List Byte) : (appendMsg data s).msgBuf = s.msgBuf ++ data := rfl
@[simp] theorem appendMsg_macKey (data : List Byte) : (appendMsg data s).macKey = s.macKey := rfl
@[simp] theorem appendMsg_encKey (data : List Byte) : (appendMsg data s).encKey = s.encKey := rfl
@[simp] theorem appendMsg_acc (data : List Byte) : (appendMsg data s).acc = s.acc := rfl
@[simp] theorem appendMsg_ctr (data : List Byte) : (appendMsg data s).ctr = s.ctr := rfl
@[simp] theorem appendMsg_ckey (data : List Byte) : (appendMsg data s).ckey = s.ckey := rfl
@[simp] theorem appendMsg_mulH (data : List Byte) : (appendMsg data s).mulH = s.mulH := rfl
@[simp] theorem appendMsg_hostIn (data : List Byte) : (appendMsg data s).hostIn = s.hostIn := rfl
@[simp] theorem appendMsg_payIn (data : List Byte) : (appendMsg data s).payIn = s.payIn := rfl
@[simp] theorem appendMsg_output (data : List Byte) : (appendMsg data s).output = s.output := rfl

/-! ### `resetBuf` -/

@[simp] theorem resetBuf_sst : (resetBuf s).sst = s.sst := rfl
@[simp] theorem resetBuf_mode : (resetBuf s).mode = s.mode := rfl
@[simp] theorem resetBuf_nonce : (resetBuf s).nonce = s.nonce := rfl
@[simp] theorem resetBuf_aad0 : (resetBuf s).aad0 = s.aad0 := rfl
@[simp] theorem resetBuf_aadBuf : (resetBuf s).aadBuf = s.aad0 := rfl
@[simp] theorem resetBuf_msgBuf : (resetBuf s).msgBuf = [] := rfl
@[simp] theorem resetBuf_macKey : (resetBuf s).macKey = s.macKey := rfl
@[simp] theorem resetBuf_encKey : (resetBuf s).encKey = s.encKey := rfl
@[simp] theorem resetBuf_acc : (resetBuf s).acc = s.acc := rfl
@[simp] theorem resetBuf_ctr : (resetBuf s).ctr = s.ctr := rfl
@[simp] theorem resetBuf_ckey : (resetBuf s).ckey = s.ckey := rfl
@[simp] theorem resetBuf_mulH : (resetBuf s).mulH = s.mulH := rfl
@[simp] theorem resetBuf_hostIn : (resetBuf s).hostIn = s.hostIn := rfl
@[simp] theorem resetBuf_payIn : (resetBuf s).payIn = s.payIn := rfl
@[simp] theorem resetBuf_output : (resetBuf s).output = s.output := rfl

/-! ### `finishSession` -/

@[simp] theorem finishSession_sst : (finishSession s).sst = .finalized := rfl
@[simp] theorem finishSession_mode : (finishSession s).mode = s.mode := rfl
@[simp] theorem finishSession_nonce : (finishSession s).nonce = s.nonce := rfl
@[simp] theorem finishSession_aad0 : (finishSession s).aad0 = s.aad0 := rfl
@[simp] theorem finishSession_aadBuf : (finishSession s).aadBuf = [] := rfl
@[simp] theorem finishSession_msgBuf : (finishSession s).msgBuf = [] := rfl
@[simp] theorem finishSession_macKey : (finishSession s).macKey = s.macKey := rfl
@[simp] theorem finishSession_encKey : (finishSession s).encKey = s.encKey := rfl
@[simp] theorem finishSession_acc : (finishSession s).acc = s.acc := rfl
@[simp] theorem finishSession_ctr : (finishSession s).ctr = s.ctr := rfl
@[simp] theorem finishSession_ckey : (finishSession s).ckey = s.ckey := rfl
@[simp] theorem finishSession_mulH : (finishSession s).mulH = s.mulH := rfl
@[simp] theorem finishSession_hostIn : (finishSession s).hostIn = s.hostIn := rfl
@[simp] theorem finishSession_payIn : (finishSession s).payIn = s.payIn := rfl
@[simp] theorem finishSession_output : (finishSession s).output = s.output := rfl

/-! ### `hardwareReset` -/

@[simp] theorem hardwareReset_sst : (hardwareReset s).sst = .uninit := rfl
@[simp] theorem hardwareReset_mode : (hardwareReset s).mode = none := rfl
@[simp] theorem hardwareReset_nonce : (hardwareReset s).nonce = none := rfl
@[simp] theorem hardwareReset_aad0 : (hardwareReset s).aad0 = [] := rfl
@[simp] theorem hardwareReset_aadBuf : (hardwareReset s).aadBuf = [] := rfl
@[simp] theorem hardwareReset_msgBuf : (hardwareReset s).msgBuf = [] := rfl
@[simp] theorem hardwareReset_macKey : (hardwareReset s).macKey = none := rfl
@[simp] theorem hardwareReset_encKey : (hardwareReset s).encKey = none := rfl
@[simp] theorem hardwareReset_acc : (hardwareReset s).acc = 0 := rfl
@[simp] theorem hardwareReset_ctr : (hardwareReset s).ctr = none := rfl
@[simp] theorem hardwareReset_ckey : (hardwareReset s).ckey = none := rfl
@[simp] theorem hardwareReset_mulH : (hardwareReset s).mulH = none := rfl
@[simp] theorem hardwareReset_hostIn : (hardwareReset s).hostIn = s.hostIn := rfl
@[simp] theorem hardwareReset_payIn : (hardwareReset s).payIn = s.payIn := rfl
@[simp] theorem hardwareReset_output : (hardwareReset s).output = s.output := rfl

/-! ### `writeAcc` -/

@[simp] theorem writeAcc_sst (acc : Block) : (writeAcc acc s).sst = s.sst := rfl
@[simp] theorem writeAcc_mode (acc : Block) : (writeAcc acc s).mode = s.mode := rfl
@[simp] theorem writeAcc_nonce (acc : Block) : (writeAcc acc s).nonce = s.nonce := rfl
@[simp] theorem writeAcc_aad0 (acc : Block) : (writeAcc acc s).aad0 = s.aad0 := rfl
@[simp] theorem writeAcc_aadBuf (acc : Block) : (writeAcc acc s).aadBuf = s.aadBuf := rfl
@[simp] theorem writeAcc_msgBuf (acc : Block) : (writeAcc acc s).msgBuf = s.msgBuf := rfl
@[simp] theorem writeAcc_macKey (acc : Block) : (writeAcc acc s).macKey = s.macKey := rfl
@[simp] theorem writeAcc_encKey (acc : Block) : (writeAcc acc s).encKey = s.encKey := rfl
@[simp] theorem writeAcc_acc (acc : Block) : (writeAcc acc s).acc = acc := rfl
@[simp] theorem writeAcc_ctr (acc : Block) : (writeAcc acc s).ctr = s.ctr := rfl
@[simp] theorem writeAcc_ckey (acc : Block) : (writeAcc acc s).ckey = s.ckey := rfl
@[simp] theorem writeAcc_mulH (acc : Block) : (writeAcc acc s).mulH = s.mulH := rfl
@[simp] theorem writeAcc_hostIn (acc : Block) : (writeAcc acc s).hostIn = s.hostIn := rfl
@[simp] theorem writeAcc_payIn (acc : Block) : (writeAcc acc s).payIn = s.payIn := rfl
@[simp] theorem writeAcc_output (acc : Block) : (writeAcc acc s).output = s.output ++ response .ok 0 [] := rfl

/-! ### `startSession` -/

@[simp] theorem startSession_sst (c : Config) (enc : Bool) (master : Key) (nonce : Nonce) (a0 : List Byte) :
    (startSession c enc master nonce a0 s).sst = .ready := rfl
@[simp] theorem startSession_mode (c : Config) (enc : Bool) (master : Key) (nonce : Nonce) (a0 : List Byte) :
    (startSession c enc master nonce a0 s).mode = some (modeOf enc) := rfl
@[simp] theorem startSession_nonce (c : Config) (enc : Bool) (master : Key) (nonce : Nonce) (a0 : List Byte) :
    (startSession c enc master nonce a0 s).nonce = some nonce := rfl
@[simp] theorem startSession_aad0 (c : Config) (enc : Bool) (master : Key) (nonce : Nonce) (a0 : List Byte) :
    (startSession c enc master nonce a0 s).aad0 = a0 := rfl
@[simp] theorem startSession_aadBuf (c : Config) (enc : Bool) (master : Key) (nonce : Nonce) (a0 : List Byte) :
    (startSession c enc master nonce a0 s).aadBuf = a0 := rfl
@[simp] theorem startSession_msgBuf (c : Config) (enc : Bool) (master : Key) (nonce : Nonce) (a0 : List Byte) :
    (startSession c enc master nonce a0 s).msgBuf = [] := rfl
@[simp] theorem startSession_macKey (c : Config) (enc : Bool) (master : Key) (nonce : Nonce) (a0 : List Byte) :
    (startSession c enc master nonce a0 s).macKey = some (deriveMacKey c master nonce) := rfl
@[simp] theorem startSession_encKey (c : Config) (enc : Bool) (master : Key) (nonce : Nonce) (a0 : List Byte) :
    (startSession c enc master nonce a0 s).encKey = some (deriveEncKey c master nonce) := rfl
@[simp] theorem startSession_acc (c : Config) (enc : Bool) (master : Key) (nonce : Nonce) (a0 : List Byte) :
    (startSession c enc master nonce a0 s).acc = s.acc := rfl
@[simp] theorem startSession_ctr (c : Config) (enc : Bool) (master : Key) (nonce : Nonce) (a0 : List Byte) :
    (startSession c enc master nonce a0 s).ctr = s.ctr := rfl
@[simp] theorem startSession_ckey (c : Config) (enc : Bool) (master : Key) (nonce : Nonce) (a0 : List Byte) :
    (startSession c enc master nonce a0 s).ckey = some (deriveEncKey c master nonce) := rfl
@[simp] theorem startSession_mulH (c : Config) (enc : Bool) (master : Key) (nonce : Nonce) (a0 : List Byte) :
    (startSession c enc master nonce a0 s).mulH = some (seedH (deriveMacKey c master nonce)) := rfl
@[simp] theorem startSession_hostIn (c : Config) (enc : Bool) (master : Key) (nonce : Nonce) (a0 : List Byte) :
    (startSession c enc master nonce a0 s).hostIn = s.hostIn := rfl
@[simp] theorem startSession_payIn (c : Config) (enc : Bool) (master : Key) (nonce : Nonce) (a0 : List Byte) :
    (startSession c enc master nonce a0 s).payIn = s.payIn := rfl
@[simp] theorem startSession_output (c : Config) (enc : Bool) (master : Key) (nonce : Nonce) (a0 : List Byte) :
    (startSession c enc master nonce a0 s).output = s.output := rfl

end Sys2Proof.Machine
end

