-- ==== Sys2Proof/Laws/Ops.lean ====
section
/-! SUPPORT. Each shared operation, said once: what it answers, and when. -/

namespace Sys2Proof.Machine

/-- The frame of a command answers a next state exactly when the payload is there, and then this one. -/
theorem command_eq_next {n : Nat} {body : List Byte → State → State} {s t : State} :
    command n body s = .next t ↔
      n ≤ s.payIn.length ∧ t = body (s.payIn.take n) { s with payIn := s.payIn.drop n } := by
  unfold command
  split
  · exact ⟨fun h => (Host.Outcome.noConfusion rfl rfl rfl (heq_of_eq h)), fun h => absurd h.1 (by omega)⟩
  · exact ⟨fun h => ⟨by omega, (Host.Outcome.next.inj h).symm⟩, fun h => congrArg _ h.2.symm⟩

/-- The frame of a command whose payload is there. -/
theorem command_of_le {n : Nat} (body : List Byte → State → State) {s : State} (h : n ≤ s.payIn.length) :
    command n body s = .next (body (s.payIn.take n) { s with payIn := s.payIn.drop n }) :=
  command_eq_next.mpr ⟨h, rfl⟩

/-- The frame of a command whose payload opens the payload port. -/
theorem command_of_append {n : Nat} (body : List Byte → State → State) {s : State} {p rest : List Byte}
    (hp : s.payIn = p ++ rest) (hn : p.length = n) :
    command n body s = .next (body p { s with payIn := rest }) := by
  subst hn
  rw [command_of_le body (by simp [hp])]
  simp [hp]

/-- The frame of a command without payload. -/
theorem command_zero (body : List Byte → State → State) (s : State) : command 0 body s = .next (body [] s) := by
  rw [command_of_le body (Nat.zero_le _)]
  simp

/-- The frame of a command stops only on a payload shorter than `PLEN`. -/
theorem command_of_lt {n : Nat} (body : List Byte → State → State) {s : State} (h : s.payIn.length < n) :
    command n body s = .fault .payloadStarved := by
  simp [command, h]

/-- The unit-command lock in `Uninit`. -/
theorem unitCommand_of_uninit {body : State → State} {s : State} (h : s.sst = .uninit) :
    unitCommand body s = body s := by
  simp [unitCommand, h]

/-- The unit-command lock in a session. -/
theorem unitCommand_of_session {body : State → State} {s : State} (h : s.sst ≠ .uninit) :
    unitCommand body s = raise .stateError s := by
  simp [unitCommand, h]

theorem whenSeeded_some {body : Block → State → State} {s : State} {h : Block} (hs : s.mulH = some h) :
    whenSeeded body s = body h s := by
  simp [whenSeeded, hs]

theorem whenSeeded_none {body : Block → State → State} {s : State} (hs : s.mulH = none) :
    whenSeeded body s = raise .stateError s := by
  simp [whenSeeded, hs]

/-- What `nextEvent` answers, and when. -/
theorem nextEvent_eq_some {s t : State} {e : HostEvent} :
    nextEvent s = some (e, t) ↔ ∃ rest, s.hostIn = e :: rest ∧ t = { s with hostIn := rest } := by
  unfold nextEvent
  split
  · simp_all
  · rename_i e' rest hcons
    constructor
    · intro h
      simp only [Option.some.injEq, Prod.mk.injEq] at h
      exact ⟨rest, by rw [hcons, h.1], h.2.symm⟩
    · rintro ⟨rest', h, rfl⟩
      rw [hcons] at h
      simp_all

theorem nextEvent_of_cons {s : State} {e : HostEvent} {rest : List HostEvent} (h : s.hostIn = e :: rest) :
    nextEvent s = some (e, { s with hostIn := rest }) :=
  nextEvent_eq_some.mpr ⟨rest, h, rfl⟩

theorem nextEvent_of_nil {s : State} (h : s.hostIn = []) : nextEvent s = none := by
  simp [nextEvent, h]

/-- A key operand of 16 bytes. -/
theorem keyOperand_16 {bs : List Byte} (h : bs.length = 16) : keyOperand bs = some (.k16 (ofBytes 128 bs)) := by
  simp [keyOperand, h]

/-- A key operand of 32 bytes. -/
theorem keyOperand_32 {bs : List Byte} (h : bs.length = 32) : keyOperand bs = some (.k32 (ofBytes 256 bs)) := by
  simp [keyOperand, h]

/-- No other length makes a key. -/
theorem keyOperand_eq_none {bs : List Byte} : keyOperand bs = none ↔ bs.length ≠ 16 ∧ bs.length ≠ 32 := by
  unfold keyOperand
  split
  · simp_all
  · split <;> simp_all

end Sys2Proof.Machine
end

