-- ==== Sys2Proof/Laws/Exec.lean ====
section
/-! SUPPORT. Every meaning is the one frame `command` around the command's own effect: which effect, said once, so that
a proof about all commands never unfolds a meaning. -/

namespace Sys2Proof.Machine

/-- What a command does once its payload is there, as a function of the payload. -/
def effect : Instr → List Byte → State → State
  | .init enc klen nlen alen => initBody Config.attached enc klen nlen alen
  | .aad _ => aadBody Config.attached
  | .msg _ => msgBody Config.attached
  | .osize pendingLen => fun _ => osizeBody pendingLen
  | .final ocap => fun _ => finalBody Config.attached ocap
  | .reset => fun _ => resetBody
  | .pvSeed => fun p => unitCommand (pvSeedBody p)
  | .pvClr => fun _ => unitCommand (writeAcc 0)
  | .pvBlk => fun p => unitCommand (pvBlkBody Config.attached p)
  | .pvSeq _ => fun p => unitCommand (pvSeqBody Config.attached p)
  | .pvLen => fun p => unitCommand (pvLenBody Config.attached p)
  | .pvOut => fun _ => unitCommand pvOutBody
  | .ksKey _ => fun p => unitCommand (ksKeyBody p)
  | .ksLoad => fun p => unitCommand (ksLoadBody p)
  | .ksRun _ => fun p => unitCommand (ksRunBody Config.attached p)
  | .ksCtr => fun _ => unitCommand ksCtrBody
  | .tcCmp => fun p => unitCommand (tcCmpBody p)

/-- Every meaning is its command's effect in the frame of its `PLEN`. -/
theorem exec_eq_command (i : Instr) (s : State) : exec i s = command (payloadLength i) (effect i) s := by
  cases i <;> rfl

/-- What `exec` answers as a next state, for every command. -/
theorem exec_eq_next {i : Instr} {s t : State} :
    exec i s = .next t ↔
      payloadLength i ≤ s.payIn.length ∧
        t = effect i (s.payIn.take (payloadLength i)) { s with payIn := s.payIn.drop (payloadLength i) } := by
  rw [exec_eq_command, command_eq_next]

/-- The effect of a unit command is behind the lock (rule R79). -/
theorem effect_of_unit (i : Instr) (h : isUnit i = true) :
    ∃ body : List Byte → State → State, effect i = fun p => unitCommand (body p) := by
  cases i <;> first | exact absurd h Bool.false_ne_true | exact ⟨_, rfl⟩

end Sys2Proof.Machine
end

