-- ==== Sys2Proof/Laws/Functions.lean ====
section
/-! SUPPORT. The functions of the three units: the bits of `REV`, `MULX` over XOR, the keystream pass over pieces, the
comparator. -/

namespace Sys2Proof.Machine

/-- `REV`, bit by bit: bits inside a byte are not reversed (rule R140). -/
theorem getLsbD_rev (b : Block) (j : Nat) (hj : j < 128) :
    (rev b).getLsbD j = b.getLsbD (8 * (15 - j / 8) + j % 8) := by
  rw [rev, getLsbD_ofBytes, List.reverse_reverse, List.getElem?_eq_getElem (by simp; omega), Option.getD_some,
    bytesOf16_getElem, getLsbD_byteAt _ _ _ (by omega)]
  simp [hj]

/-- `MULX` with its reduction as one XOR (rule R141). -/
theorem mulX_eq_xor (v : Block) :
    mulX v = (v >>> 1) ^^^ (if v.getLsbD 0 then 0xE1000000000000000000000000000000#128 else 0#128) := by
  unfold mulX
  split <;> simp

/-- `MULX` is linear over XOR (rule R141). -/
theorem mulX_xor (a b : Block) : mulX (a ^^^ b) = mulX a ^^^ mulX b := by
  have hsel : ∀ (r : Block) (x y : Bool),
      (if (x ^^ y) = true then r else 0#128) = (if x = true then r else 0#128) ^^^ (if y = true then r else 0#128) := by
    intro r x y
    cases x <;> cases y <;> simp
  rw [mulX_eq_xor, mulX_eq_xor, mulX_eq_xor, BitVec.getLsbD_xor, hsel, BitVec.ushiftRight_xor_distrib]
  ac_rfl

/-- The pieces of two sequences joined at a block boundary. -/
theorem pieces_append (m n : Nat) (s₁ s₂ : List Byte) (h : s₁.length = 16 * m) :
    pieces (m + n) (s₁ ++ s₂) = pieces m s₁ ++ pieces n s₂ := by
  induction m generalizing s₁ with
  | zero => simp_all [pieces]
  | succ m ih =>
    rw [Nat.succ_add, pieces, pieces, List.drop_append_of_le_length (by omega),
      List.take_append_of_le_length (by omega), ih _ (by simp; omega), List.cons_append]

/-- `POLYVAL` is one run of folds from zero: the blocks of the associated data, those of the message, the length block
(rule R153). -/
theorem polyvalAcc_eq_foldl (c : Config) (h : Block) (aad msg : List Byte) :
    polyvalAcc c h aad msg =
      (blocks aad ++ blocks msg ++ [lenBlock aad.length msg.length]).foldl (fold c h) 0 := by
  simp only [polyvalAcc, absorb, List.foldl_append, List.foldl_cons, List.foldl_nil]

/-- Each piece of a sequence, with its bytes (rule R144). -/
theorem pieces_getElem? (n : Nat) (s : List Byte) (j : Nat) (h : j < n) :
    (pieces n s)[j]? = some ((s.drop (16 * j)).take 16) := by
  induction n generalizing s j with
  | zero => omega
  | succ n ih =>
    cases j with
    | zero => simp [pieces]
    | succ j => simp [pieces, ih _ j (by omega), Nat.mul_succ, Nat.add_comm]

/-- The keystream pass answers as many bytes as it takes (rule R172). -/
theorem ctrXorPieces_length (c : Config) (k : Key) (ps : List (List Byte)) (ctr : Block)
    (h : ∀ p ∈ ps, p.length ≤ 16) : (ctrXorPieces c k ps ctr).1.length = ps.flatten.length := by
  induction ps generalizing ctr with
  | nil => rfl
  | cons p ps ih =>
    simp [ctrXorPieces, ih _ (fun q hq => h q (List.mem_cons_of_mem _ hq)), h p]

/-- The keystream pass steps the counter once per piece (rule R172). -/
theorem ctrXorPieces_counter (c : Config) (k : Key) (ps : List (List Byte)) (ctr : Block) :
    (ctrXorPieces c k ps ctr).2 = inc32^[ps.length] ctr := by
  induction ps generalizing ctr with
  | nil => rfl
  | cons p ps ih => simp [ctrXorPieces, ih]

/-- OR-accumulated differences vanish exactly when there is none (rule R191). -/
theorem foldl_or_xor_eq_zero (l : List (Byte × Byte)) (d : Byte) :
    l.foldl (fun d p => d ||| (p.1 ^^^ p.2)) d = 0 ↔ d = 0 ∧ ∀ p ∈ l, p.1 = p.2 := by
  induction l generalizing d with
  | nil => simp
  | cons p l ih =>
    rw [List.foldl_cons, ih]
    simp [and_assoc]

/-- The comparator's value is 1 exactly when the two tags are equal (rule R191). -/
theorem ctEq_iff (a b : Block) : ctEq a b = true ↔ a = b := by
  unfold ctEq tagDifference
  rw [beq_iff_eq, foldl_or_xor_eq_zero]
  constructor
  · rintro ⟨-, h⟩
    apply block_ext
    intro i hi
    have := h ((bytesOf 16 a)[i]'(by simpa), (bytesOf 16 b)[i]'(by simpa))
      (List.mem_iff_getElem.mpr ⟨i, by simpa, by simp⟩)
    simpa [bytesOf16_getElem] using this
  · rintro rfl
    refine ⟨rfl, fun p hp => ?_⟩
    obtain ⟨i, hi, rfl⟩ := List.mem_iff_getElem.mp hp
    simp

end Sys2Proof.Machine
end

