-- ==== Sys2Proof/Laws/Memory.lean ====
section
/-! SUPPORT. The block's memory is its two buffers (`20_memory.md` rules R50, R62): every operation on them keeps them
within their capacity, and reset has them so. -/

namespace Sys2Proof.Machine

theorem memory_wf_iff {c : Config} {s : State} :
    Memory.wf c s = true ↔
      s.aadBuf.length ≤ c.aadMax ∧ s.aad0.length ≤ c.aadMax ∧ s.msgBuf.length ≤ msgBufLimit c s.mode := by
  simp [Memory.wf, and_assoc]

theorem memory_wf_reset (c : Config) : Memory.wf c State.reset = true := by
  simp [memory_wf_iff, State.reset]

/-- An append that passes its check keeps the capacity. -/
theorem memory_wf_appendAad {c : Config} {s : State} {data : List Byte} (h : Memory.wf c s = true)
    (hfit : s.aadBuf.length + data.length ≤ c.aadMax) : Memory.wf c (appendAad data s) = true := by
  rw [memory_wf_iff] at h ⊢
  simpa [hfit] using h.2

/-- An append that passes its check keeps the capacity. -/
theorem memory_wf_appendMsg {c : Config} {s : State} {data : List Byte} (h : Memory.wf c s = true)
    (hfit : s.msgBuf.length + data.length ≤ msgBufLimit c s.mode) : Memory.wf c (appendMsg data s) = true := by
  rw [memory_wf_iff] at h ⊢
  simpa [hfit] using ⟨h.1, h.2.1⟩

theorem memory_wf_resetBuf {c : Config} {s : State} (h : Memory.wf c s = true) :
    Memory.wf c (resetBuf s) = true := by
  rw [memory_wf_iff] at h ⊢
  simpa using h.2.1

theorem memory_wf_finishSession {c : Config} {s : State} (h : Memory.wf c s = true) :
    Memory.wf c (finishSession s) = true := by
  rw [memory_wf_iff] at h ⊢
  simpa using h.2.1

theorem memory_wf_startSession {c : Config} {enc : Bool} {master : Key} {nonce : Nonce} {a0 : List Byte} {s : State}
    (h : a0.length ≤ c.aadMax) : Memory.wf c (startSession c enc master nonce a0 s) = true := by
  simp [memory_wf_iff, h]

theorem memory_wf_hardwareReset (c : Config) (s : State) : Memory.wf c (hardwareReset s) = true := by
  simp [memory_wf_iff]

end Sys2Proof.Machine
end

