-- ==== Sys2Proof/Laws/PerInstr.lean ====
section
/-! SUPPORT. What holds of every command as syntax, one lemma per constructor. -/

namespace Sys2Proof.Laws

open Sys2Proof.Machine

/-- The command's word carries an opcode the map lists (rule R76), and a well-formed command's payload length fits the
56-bit field rule R71 gives lengths. -/
def WordFields.Statement (i : Instr) : Prop :=
  opcOf (encode i) ∈ listedOpcodes ∧ (i.wellFormed = true → payloadLength i < 2 ^ 56)

theorem WordFields.init (enc : Bool) (klen nlen alen : Nat) : WordFields.Statement (.init enc klen nlen alen) :=
  ⟨by simp [encode, listedOpcodes], by simp [Instr.wellFormed, payloadLength]; omega⟩

theorem WordFields.aad (len : Nat) : WordFields.Statement (.aad len) :=
  ⟨by simp [encode, listedOpcodes], by simp [Instr.wellFormed, payloadLength]⟩

theorem WordFields.msg (len : Nat) : WordFields.Statement (.msg len) :=
  ⟨by simp [encode, listedOpcodes], by simp [Instr.wellFormed, payloadLength]⟩

theorem WordFields.osize (pendingLen : Nat) : WordFields.Statement (.osize pendingLen) :=
  ⟨by simp [encode, listedOpcodes], by simp [payloadLength]⟩

theorem WordFields.final (ocap : Nat) : WordFields.Statement (.final ocap) :=
  ⟨by simp [encode, listedOpcodes], by simp [payloadLength]⟩

theorem WordFields.reset : WordFields.Statement .reset :=
  ⟨by simp [encode, listedOpcodes], by simp [payloadLength]⟩

theorem WordFields.pvSeed : WordFields.Statement .pvSeed :=
  ⟨by simp [encode, listedOpcodes], by simp [payloadLength]⟩

theorem WordFields.pvClr : WordFields.Statement .pvClr :=
  ⟨by simp [encode, listedOpcodes], by simp [payloadLength]⟩

theorem WordFields.pvBlk : WordFields.Statement .pvBlk :=
  ⟨by simp [encode, listedOpcodes], by simp [payloadLength]⟩

theorem WordFields.pvSeq (len : Nat) : WordFields.Statement (.pvSeq len) :=
  ⟨by simp [encode, listedOpcodes], by simp [Instr.wellFormed, payloadLength]⟩

theorem WordFields.pvLen : WordFields.Statement .pvLen :=
  ⟨by simp [encode, listedOpcodes], by simp [payloadLength]⟩

theorem WordFields.pvOut : WordFields.Statement .pvOut :=
  ⟨by simp [encode, listedOpcodes], by simp [payloadLength]⟩

theorem WordFields.ksKey (klen : Nat) : WordFields.Statement (.ksKey klen) :=
  ⟨by simp [encode, listedOpcodes], by simp [Instr.wellFormed, payloadLength]⟩

theorem WordFields.ksLoad : WordFields.Statement .ksLoad :=
  ⟨by simp [encode, listedOpcodes], by simp [payloadLength]⟩

theorem WordFields.ksRun (len : Nat) : WordFields.Statement (.ksRun len) :=
  ⟨by simp [encode, listedOpcodes], by simp [Instr.wellFormed, payloadLength]⟩

theorem WordFields.ksCtr : WordFields.Statement .ksCtr :=
  ⟨by simp [encode, listedOpcodes], by simp [payloadLength]⟩

theorem WordFields.tcCmp : WordFields.Statement .tcCmp :=
  ⟨by simp [encode, listedOpcodes], by simp [payloadLength]⟩

end Sys2Proof.Laws
end

