-- ==== Sys2Proof/Tests/Slice0.lean ====
section
/-! SUPPORT. Tests of the model against the spec's own words, vectors and programs (`30_encoding.md` rules R76 to R83;
`95_test_vectors.md` sections 2 to 5). Every expected value is the spec's. The commands that use a collaborator run
here with the spec's reference multiplier `GMUL` (rule R143) and its hand-checkable cipher `TOY` (rule R134).
The last section shows, for every statement that has hypotheses, that they can all hold together. -/

namespace Sys2Proof.Tests

open Sys2Proof Sys2Proof.Machine

/-! ## Helpers -/

/-- `TOY(k, b)[i] = b[i] ^ k[i mod len(k)]` (rule R134). -/
def toyCipher : Key → Block → Block
  | .k16 k, b => b ^^^ k
  | .k32 k, b => b ^^^ k.extractLsb' 128 128

/-- `TOY` and `GMUL` with the spec's default limits (rule R8). -/
def toy : Config where
  cipher := toyCipher
  gfmul := gmul

/-- The default limits of rule R8, where a configuration names none. -/
theorem test_default_limits : toy.aadMax = 2 ^ 36 ∧ toy.msgMax = 2 ^ 36 := by decide

/-- Program D's limits, `AAD_MAX = MSG_MAX = 8`. -/
def toySmall : Config where
  cipher := toyCipher
  gfmul := gmul
  aadLimit := ⟨8, by decide⟩
  msgLimit := ⟨8, by decide⟩

/-- The key `000102..0f`. -/
def keyT : List Byte := bytesOf 16 0x000102030405060708090a0b0c0d0e0f#128

/-- The nonce `a0a1..ab`. -/
def nonceT : List Byte := bytesOf 12 0xa0a1a2a3a4a5a6a7a8a9aaab#96

/-- `"foo"`. -/
def foo : List Byte := [0x66, 0x6f, 0x6f]

/-- `"hello"`. -/
def hello : List Byte := [0x68, 0x65, 0x6c, 0x6c, 0x6f]

/-- The output of vector S4. -/
def outS4 : List Byte := bytesOf 21 0xb045c6d7e9da21a8b822740822c4b15efb974947cd#168

/-- A session of vector S4's key, nonce and associated data with the given message buffer. -/
def sessionT (mode : Mode) (msg : List Byte) : State :=
  { startSession toy true (.k16 0x000102030405060708090a0b0c0d0e0f) 0xa0a1a2a3a4a5a6a7a8a9aaab foo State.reset with
    mode := some mode, msgBuf := msg }

/-- The block with the multiplier seeded as in vectors PV2 to PV5. -/
def seeded : State := { State.reset with mulH := some 0xdcbaa5dd137c188ebb21492c23c9b112 }

/-- The block keyed and loaded as in vector KS1. -/
def keyedKS1 : State :=
  { State.reset with
    ckey := some (.k16 0x000102030405060708090a0b0c0d0e0f)
    ctr := some 0xf0f1f2f3f4f5f6f7f8f9fafbfcfdfe8f }

/-- The response words delivered. -/
def words (s : State) : List Word64 :=
  s.output.filterMap fun o => match o with
    | .word w => some w
    | .byte _ => none

/-- The payload bytes delivered. -/
def payload (s : State) : List Byte :=
  s.output.filterMap fun o => match o with
    | .word _ => none
    | .byte b => some b

/-- What a next state shows, `none` for a stop. -/
def seen {α : Type} (f : State → α) : Host.Outcome State Fault Refusal → Option α
  | .next s => some (f s)
  | .fault _ => none
  | .refused _ => none

/-! ## Well-formedness: each check refuses an argument one too large for its field -/

theorem test_wellFormed_refuses_klen : (Instr.init true 256 12 0).wellFormed = false := by decide
theorem test_wellFormed_refuses_nlen : (Instr.init true 16 256 0).wellFormed = false := by decide
theorem test_wellFormed_refuses_alen : (Instr.init true 16 12 (2 ^ 32)).wellFormed = false := by decide
theorem test_wellFormed_refuses_aad : (Instr.aad (2 ^ 56)).wellFormed = false := by decide
theorem test_wellFormed_refuses_msg : (Instr.msg (2 ^ 56)).wellFormed = false := by decide
theorem test_wellFormed_refuses_osize : (Instr.osize (2 ^ 56)).wellFormed = false := by decide
theorem test_wellFormed_refuses_final : (Instr.final (2 ^ 56)).wellFormed = false := by decide
theorem test_wellFormed_refuses_pvSeq : (Instr.pvSeq (2 ^ 56)).wellFormed = false := by decide
theorem test_wellFormed_refuses_ksKey : (Instr.ksKey (2 ^ 56)).wellFormed = false := by decide
theorem test_wellFormed_refuses_ksRun : (Instr.ksRun (2 ^ 56)).wellFormed = false := by decide

/-! ## Decoding: the words of section 2.7 and rules R71, R74, R76 -/

theorem test_decode_init_enc : decode 0x01000000030C1001 = .ok (.init true 16 12 3) := by decide
theorem test_decode_init_dec : decode 0x01000000000C2000 = .ok (.init false 32 12 0) := by decide
theorem test_decode_aad : decode 0x0200000000000002 = .ok (.aad 2) := by decide
theorem test_decode_msg : decode 0x0300000000000015 = .ok (.msg 21) := by decide
theorem test_decode_osize : decode 0x0400000000000007 = .ok (.osize 7) := by decide
theorem test_decode_final : decode 0x0500000000000015 = .ok (.final 21) := by decide
theorem test_decode_final_widest : decode 0x05FFFFFFFFFFFFFF = .ok (.final (2 ^ 56 - 1)) := by decide
theorem test_decode_reset : decode 0x0600000000000000 = .ok .reset := by decide
theorem test_decode_pvSeed : decode 0x1000000000000000 = .ok .pvSeed := by decide
theorem test_decode_pvClr : decode 0x1100000000000000 = .ok .pvClr := by decide
theorem test_decode_pvBlk : decode 0x1200000000000000 = .ok .pvBlk := by decide
theorem test_decode_pvSeq : decode 0x1300000000000005 = .ok (.pvSeq 5) := by decide
theorem test_decode_pvLen : decode 0x1400000000000000 = .ok .pvLen := by decide
theorem test_decode_pvOut : decode 0x1500000000000000 = .ok .pvOut := by decide
theorem test_decode_ksKey : decode 0x2000000000000010 = .ok (.ksKey 16) := by decide
theorem test_decode_ksLoad : decode 0x2100000000000000 = .ok .ksLoad := by decide
theorem test_decode_ksRun : decode 0x2300000000000028 = .ok (.ksRun 40) := by decide
theorem test_decode_ksCtr : decode 0x2400000000000000 = .ok .ksCtr := by decide
theorem test_decode_tcCmp : decode 0x3000000000000000 = .ok .tcCmp := by decide
theorem test_decode_unassigned : decode 0x2200000000000000 = .error (.reservedOpcode 0x22) := by decide
theorem test_decode_reset_arg : decode 0x0600000000000001 = .error (.reservedArgument 0x06 1) := by decide
theorem test_decode_init_reserved_bit : decode 0x01000000000C1003 = .error (.reservedArgument 0x01 0xC1003) := by
  decide
theorem test_decode_pvOut_arg : decode 0x1500000000000010 = .error (.reservedArgument 0x15 0x10) := by decide
theorem test_encode_init : encode (.init true 24 11 3) = 0x01000000030B1801 := by decide
theorem test_payload_length_init : wordPayloadLength 0x01000000030C1001 = 31 := by decide
theorem test_payload_length_illegal : wordPayloadLength 0x2200000000000000 = 0 := by decide
theorem test_table_word : decodeTableWord 64 0x3000000000000000 = some .tcCmp := by decide

/-! ## The step -/

/-- An illegal word is answered `0x0500000000000000` and takes no payload (section 2.7; program D step 5). -/
theorem test_step_illegal_word :
    seen (fun s => (words s, s.payIn))
      (step { State.reset with hostIn := [.command 0x2200000000000000], payIn := [0x11] })
      = some ([0x0500000000000000], [0x11]) := by decide

/-- Program A step 1: after hardware reset `PV.OUT` answers 16 zero bytes. -/
theorem test_step_pvOut_after_reset :
    seen (fun s => (words s, payload s)) (step (State.reset.withFetchWord 64 0x1500000000000000))
      = some ([0x0000000000000010], List.replicate 16 0) := by decide

/-- `INIT` with empty key and nonce, word `0x01..00`, is a `ConfigurationError` (section 2.6). -/
theorem test_step_runs_first_init :
    seen words (step (State.reset.withFetchWord 64 0x0100000000000000)) = some [0x0100000000000000] := by decide

/-! ## Session commands -/

/-- Vector K4: the derived keys and the seed. -/
theorem test_init_derives_keys :
    (fun s : State => (s.macKey, s.encKey, s.mulH))
        (initBody toy true 16 12 1 (keyT ++ nonceT ++ [0x66]) State.reset)
      = (some 0x00010203a4a4a4a401010203a4a4a4a4, some (.k16 0x02010203a4a4a4a403010203a4a4a4a4),
          some 0x5252525201810080d252525201810080) := by decide +kernel

/-- Program D step 10: a 13-byte nonce is a `ConfigurationError`. -/
theorem test_init_rejects_nonce :
    words (initBody toy true 16 13 0 (keyT ++ nonceT ++ [0]) State.reset) = [0x0100000000000000] := by
  decide +kernel

/-- Rule R104's example: from `aadBuf = 66`, `AAD 6f6f` gives `666f6f`. -/
theorem test_aad_appends :
    (aadBody toy [0x6f, 0x6f] { sessionT .encrypt [] with aadBuf := [0x66] }).aadBuf = foo := by decide +kernel

/-- Program D step 15: 9 bytes pass `AAD_MAX = 8`. -/
theorem test_aad_overflow :
    (fun s : State => (words s, s.aadBuf))
      (aadBody toySmall (List.replicate 9 0) { sessionT .decrypt [] with aadBuf := [] })
      = ([0x0200000000000000], []) := by decide +kernel

/-- Rule R105's example. -/
theorem test_msg_appends : (msgBody toy hello (sessionT .encrypt [])).msgBuf = hello := by decide +kernel

/-- Program D steps 27, 28: in `Decrypt` the limit is 24 bytes, not 8 and not 25. -/
theorem test_msg_decrypt_limit :
    (words (msgBody toySmall (List.replicate 25 0) (sessionT .decrypt [])),
      words (msgBody toySmall (List.replicate 24 0) (sessionT .decrypt [])))
      = ([0x0200000000000000], [0x0000000000000000]) := by decide +kernel

/-- Section 2.6: `Encrypt` with 5 bytes, `OSIZE 7` is 28. -/
theorem test_osize_encrypt : words (osizeBody 7 (sessionT .encrypt hello)) = [0x000000000000001C] := by
  decide +kernel

/-- Section 2.6: `Decrypt` with 3 bytes, `OSIZE 4` is 0, never negative. -/
theorem test_osize_decrypt_clamps : words (osizeBody 4 (sessionT .decrypt [1, 2, 3])) = [0] := by decide +kernel

/-- Rule R107's example: the associated data is re-seeded, the message dropped. -/
theorem test_reset_reseeds :
    (fun s : State => (s.sst, s.aadBuf, s.msgBuf))
      (resetBody { sessionT .encrypt [1, 2] with aad0 := [0xaa], aadBuf := [0xaa, 0xbb, 0xcc] })
      = (.ready, [0xaa], []) := by decide +kernel

/-- Program D step 4: in `Uninit` `RESET` answers `OK` and stays. -/
theorem test_reset_uninit :
    seen (fun s => (s.sst, words s)) (exec .reset State.reset) = some (.uninit, [0]) := by decide

/-! ## `FINAL` and the comparator -/

/-- Vector S4: ciphertext then tag, and the registers it leaves. -/
theorem test_final_encrypts :
    (fun s : State => (payload s, s.acc, s.ctr)) (finalBody toy 21 (sessionT .encrypt hello))
      = (outS4, 0xe9e3ed3353f6196f210a752218088178, some 0xdb21a8b822740822c4b15efb974947cd) := by decide +kernel

/-- Program C steps 4 and 12: the first byte changed is an `AuthenticationError` with no payload; unchanged, the
plaintext comes back. -/
theorem test_final_decrypts :
    ((fun s : State => (words s, payload s)) (finalBody toy 5 (sessionT .decrypt (0x30 :: outS4.tail))),
      (fun s : State => (words s, payload s)) (finalBody toy 5 (sessionT .decrypt outS4)))
      = (([0x0400000000000000], []), ([0x0000000000000005], hello)) := by decide +kernel

/-- Section 2.5: two differences that an XOR accumulator would cancel; `ST` is `OK`. -/
theorem test_tcCmp_different :
    words (tcCmpBody (0x01 :: List.replicate 16 0 ++ 0x01 :: List.replicate 14 0) State.reset) = [0] := by
  decide +kernel

/-- Section 2.5: equal tags. -/
theorem test_tcCmp_equal :
    words (tcCmpBody (bytesOf 16 (0x80#128) ++ bytesOf 16 (0x80#128)) State.reset) = [1] := by decide +kernel

/-! ## Unit PVA -/

/-- Rule R148's example. -/
theorem test_pvSeed :
    seen (·.mulH) (exec .pvSeed { State.reset with payIn := bytesOf 16 0x25629347589242761d31f826ba4b757b#128 })
      = some (some 0xdcbaa5dd137c188ebb21492c23c9b112) := by decide +kernel

/-- Rule R149's example: any `acc` becomes zero. -/
theorem test_pvClr : seen (·.acc) (exec .pvClr { State.reset with acc := 0xff }) = some 0 := by decide

/-- Vector PV2, first fold. -/
theorem test_pvBlk :
    (pvBlkBody toy (bytesOf 16 0x4f4f95668c83dfb6401762bb2d01a262#128) seeded).acc
      = 0x776d08511501169c9850ff3745c6dace := by decide +kernel

/-- Program A step 2: without a seed, `StateError`, `acc` unchanged. -/
theorem test_pvBlk_unseeded :
    seen (fun s => (words s, s.acc)) (exec .pvBlk { State.reset with payIn := List.replicate 16 0 })
      = some ([0x0200000000000000], 0) := by decide

/-- Vector PV3: 5 bytes, one padded block. -/
theorem test_pvSeq_pads : (pvSeqBody toy hello seeded).acc = 0x10b6bbe205640356fde5273987766626 := by decide +kernel

/-- Vector PV4: 17 bytes, two blocks. -/
theorem test_pvSeq_two_blocks :
    (pvSeqBody toy (bytesOf 17 0x0102030405060708090a0b0c0d0e0f1011#136) seeded).acc
      = 0xf38d3767e43dceae20fc491d5ca5fd07 := by decide +kernel

/-- Vector PV5: associated-data bits first; unequal lengths decide conflict C1. -/
theorem test_pvLen :
    payload (pvOutBody (pvLenBody toy (leBytes 8 3 ++ leBytes 8 5) seeded))
      = bytesOf 16 0x3d175c92cf50035456326f4bf45f87ad#128 := by decide +kernel

/-- Rule R154: a count of `2^61` loses its top bits. -/
theorem test_lenBlock_wraps : lenBlock (2 ^ 61) (2 ^ 61 + 1) = 0x00000000000000000800000000000000 := by decide +kernel

/-- Rule R155's example. -/
theorem test_pvOut :
    payload (pvOutBody { State.reset with acc := 0x7eb7e5f56c86b7e5fa1961847bb4a3f7 })
      = bytesOf 16 0xf7a3b47b846119fae5b7866cf5e5b77e#128 := by decide +kernel

/-- Section 2.3: `MULX` with and without reduction. -/
theorem test_mulX :
    (mulX (BitVec.allOnes 128), mulX 0x01000000000000000000000000000000)
      = (0x9effffffffffffffffffffffffffffff, 0x00800000000000000000000000000000) := by decide +kernel

/-- Section 2.1: the published GCM product. -/
theorem test_gmul :
    gmul 0x0388dace60b6a392f328c2b971b2fe78 0x66e94bd4ef8a2c3b884cfa59ca342b2e
      = 0x5e2ec746917062882c85b0685353deb7 := by decide +kernel

/-! ## Unit KSG -/

/-- Program E step 5. -/
theorem test_ksKey :
    seen (·.ckey) (exec (.ksKey 16) { State.reset with payIn := keyT })
      = some (some (.k16 0x000102030405060708090a0b0c0d0e0f)) := by decide +kernel

/-- Program E step 4: 24 bytes are no key. -/
theorem test_ksKey_rejects :
    seen (fun s => (words s, s.ckey)) (exec (.ksKey 24) { State.reset with payIn := List.replicate 24 0 })
      = some ([0x0100000000000000], none) := by decide +kernel

/-- Rule R177's example. -/
theorem test_ksLoad :
    seen (·.ctr) (exec .ksLoad { State.reset with payIn := bytesOf 16 0xf0f1f2f3f4f5f6f7f8f9fafbfcfdfe0f#128 })
      = some (some 0xf0f1f2f3f4f5f6f7f8f9fafbfcfdfe8f) := by decide +kernel

/-- Vector KS1, second row: a partial block still steps the counter. -/
theorem test_ksRun :
    (fun s : State => (payload s, s.ctr)) (ksRunBody toy hello keyedKS1)
      = ([0x98, 0x95, 0x9c, 0x9c, 0x9f], some 0xf1f1f2f3f4f5f6f7f8f9fafbfcfdfe8f) := by decide +kernel

/-- Program E steps 6, 7: the counter wraps within 32 bits in the middle of a message. -/
theorem test_ksRun_wraps :
    (ksRunBody toy (List.replicate 40 0)
        { keyedKS1 with ctr := some 0xfeffffffaaaaaaaaaaaaaaaaaaaaaaaa }).ctr
      = some 0x01000000aaaaaaaaaaaaaaaaaaaaaaaa := by decide +kernel

/-- Rule R171: a carry into byte 1. -/
theorem test_inc32_carry :
    inc32 0xff000000aaaaaaaaaaaaaaaaaaaaaaaa = 0x00010000aaaaaaaaaaaaaaaaaaaaaaaa := by decide +kernel

/-- Rule R179. -/
theorem test_ksCtr :
    seen (fun s => (words s, payload s)) (exec .ksCtr keyedKS1)
      = some ([0x0000000000000010], bytesOf 16 0xf0f1f2f3f4f5f6f7f8f9fafbfcfdfe8f#128) := by decide +kernel

/-- Program E step 1. -/
theorem test_ksCtr_unloaded : seen words (exec .ksCtr State.reset) = some [0x0200000000000000] := by decide

/-! ## Witnesses: the hypotheses of every statement hold together somewhere, clause by clause -/

/-- `n` zero bytes. -/
def zeros (n : Nat) : List Byte := List.replicate n 0

/-- The block in `Uninit`, every unit register loaded, 64 payload bytes waiting. -/
def unitW : State := { keyedKS1 with mulH := some 1, payIn := zeros 64 }

/-- A session with nothing buffered, 64 payload bytes waiting. -/
def sessionW (sst : SessionState) (mode : Mode) : State :=
  { State.reset with
    sst := sst
    mode := some mode
    nonce := some 0
    macKey := some 0
    encKey := some (.k16 0)
    ckey := some (.k16 0)
    mulH := some (seedH 0)
    payIn := zeros 64 }

theorem sessionW_inv (c : Config) (sst : SessionState) (mode : Mode) : SessionInv c (sessionW sst mode) where
  buffers_fit := by simp [Memory.wf, sessionW, State.reset]
  empty_outside_ready := fun _ => ⟨rfl, rfl⟩
  registers_hold := fun _ => ⟨rfl, rfl, rfl, rfl⟩
  collaborators_keyed := fun _ => ⟨rfl, rfl⟩

theorem witness_DecodeOfEncode :
    (Instr.init true 255 255 (2 ^ 32 - 1)).wellFormed = true ∧ (Instr.final (2 ^ 56 - 1)).wellFormed = true := by decide

theorem witness_EncodeOfDecode : decode 0x01000000000C1001 = .ok (.init true 16 12 0) := by decide

theorem witness_OpcodeRowsDisjoint :
    (opcodeMap.get ⟨0, by decide⟩).selects 0x01000000000C1001 = true ∧
      (opcodeMap.get ⟨16, by decide⟩).selects 0x3000000000000000 = true := by decide

theorem witness_StepRunsDecodedCommand :
    ({ State.reset with hostIn := [.command 0x0600000000000000] } : State).hostIn = .command 0x0600000000000000 :: [] ∧
      decode 0x0600000000000000 = .ok .reset ∧ Instr.reset.wellFormed = true := by decide

/-- One word for each clause: an unlisted opcode, a nonzero `ARG` that must be 0, a reserved `INIT` bit. -/
theorem witness_ReservedWordsAnsweredIllegal :
    opcOf 0x2200000000000000 ∉ listedOpcodes ∧
      (opcOf 0x0680000000000000 ∈ zeroArgOpcodes ∧ argOf 0x0680000000000000 ≠ 0) ∧
      (opcOf 0x01000000000C1080 = 0x01 ∧ (argOf 0x01000000000C1080).extractLsb' 1 7 ≠ 0) ∧
      ({ State.reset with hostIn := [.command 0x2200000000000000] } : State).hostIn
        = .command 0x2200000000000000 :: [] := by decide

theorem witness_IdleBlockHoldsState : State.reset.hostIn = [] := rfl

theorem witness_HardwareResetRestoresResetValues :
    ({ unitW with hostIn := [.hardwareReset] } : State).hostIn = .hardwareReset :: [] := rfl

theorem witness_OnlyHardwareResetReturnsToUninit :
    ∃ t, step { sessionW .ready .encrypt with hostIn := [.hardwareReset] } = .next t ∧
      (sessionW .ready .encrypt).sst ≠ .uninit ∧ t.sst = .uninit :=
  ⟨_, rfl, by decide, rfl⟩

theorem witness_StepKeepsSessionInv (h := sessionW_inv Config.attached .ready .encrypt) :
    SessionInv Config.attached { sessionW .ready .encrypt with hostIn := [.command 0x0600000000000000] } ∧
      ∃ t, step { sessionW .ready .encrypt with hostIn := [.command 0x0600000000000000] } = .next t :=
  ⟨⟨h.1, h.2, h.3, h.4⟩, _, rfl⟩

theorem witness_NoSessionRegisterInUninit :
    NoSessionInUninit { unitW with hostIn := [.command 0x1100000000000000] } ∧
      ∃ t, step { unitW with hostIn := [.command 0x1100000000000000] } = .next t :=
  ⟨fun _ => ⟨rfl, rfl, rfl, rfl, rfl⟩, _, rfl⟩

theorem witness_CommandConsumesItsPayload : ∃ t, exec .pvSeed unitW = .next t := ⟨_, rfl⟩

theorem witness_CommandStopsExactlyWhenStarved :
    ({ unitW with payIn := zeros 15 } : State).payIn.length < payloadLength .pvSeed ∧
      payloadLength .pvSeed ≤ ({ unitW with payIn := zeros 16 } : State).payIn.length := by decide

theorem witness_CommandAnswersOnce :
    (Instr.final 16).wellFormed = true ∧ SessionInv Config.attached (sessionW .ready .encrypt) ∧
      ∃ t, exec (.final 16) (sessionW .ready .encrypt) = .next t :=
  ⟨by decide, sessionW_inv _ _ _, _, exec_eq_next.mpr ⟨Nat.zero_le _, rfl⟩⟩

/-- A 16-byte and a 32-byte key. -/
theorem witness_InitStartsSession :
    (zeros 28 = zeros 16 ++ zeros 12 ++ [] ++ [] ∧ (zeros 12).length = 12 ∧ (zeros 16).length = 16) ∧
      (zeros 44 = zeros 32 ++ zeros 12 ++ [] ++ [] ∧ (zeros 32).length = 32) ∧
      ([] : List Byte).length ≤ Config.attached.aadMax :=
  ⟨by decide, by decide, Nat.zero_le _⟩

/-- A wrong key length, a wrong nonce length, and associated data one byte too long. -/
theorem witness_InitRejectsWrongLengths :
    (24 + 12 + 0 ≤ unitW.payIn.length ∧ ¬ ((24 = 16 ∨ 24 = 32) ∧ 12 = 12 ∧ 0 ≤ Config.attached.aadMax)) ∧
      (16 + 11 + 0 ≤ unitW.payIn.length ∧ ¬ ((16 = 16 ∨ 16 = 32) ∧ 11 = 12 ∧ 0 ≤ Config.attached.aadMax)) ∧
      (16 + 12 + (Config.attached.aadMax + 1) ≤
          ({ unitW with payIn := zeros (16 + 12 + (Config.attached.aadMax + 1)) } : State).payIn.length ∧
        ¬ ((16 = 16 ∨ 16 = 32) ∧ 12 = 12 ∧ Config.attached.aadMax + 1 ≤ Config.attached.aadMax)) :=
  ⟨⟨by decide, by simp⟩, ⟨by decide, by simp⟩, by simp [zeros], by simp⟩

/-- Room, no room by one byte, no session. -/
theorem witness_AadAppends :
    ((sessionW .ready .encrypt).sst = .ready ∧
        (sessionW .ready .encrypt).aadBuf.length + ([] : List Byte).length ≤ Config.attached.aadMax) ∧
      Config.attached.aadMax <
        (sessionW .ready .encrypt).aadBuf.length + (zeros (Config.attached.aadMax + 1)).length ∧
      unitW.sst ≠ .ready :=
  ⟨⟨rfl, Nat.zero_le _⟩, by simp [sessionW, State.reset, zeros], by decide⟩

/-- Room and no room by one byte in each mode, no session. -/
theorem witness_MsgAppends :
    (sessionW .ready .encrypt).sst = .ready ∧ (sessionW .ready .encrypt).mode = some .encrypt ∧
      (sessionW .ready .decrypt).mode = some .decrypt ∧
      (sessionW .ready .encrypt).msgBuf.length + ([] : List Byte).length ≤ Config.attached.msgMax ∧
      Config.attached.msgMax <
        (sessionW .ready .encrypt).msgBuf.length + (zeros (Config.attached.msgMax + 1)).length ∧
      Config.attached.msgMax + 16 <
        (sessionW .ready .decrypt).msgBuf.length + (zeros (Config.attached.msgMax + 17)).length ∧
      unitW.sst ≠ .ready :=
  ⟨rfl, rfl, rfl, Nat.zero_le _, by simp [sessionW, State.reset, zeros], by simp [sessionW, State.reset, zeros],
    by decide⟩

/-- Encrypt; decrypt at 16 and at 15 bytes; `Uninit`. -/
theorem witness_OsizeAnswersOutputSize :
    ((sessionW .finalized .encrypt).sst ≠ .uninit ∧ (sessionW .finalized .encrypt).mode = some .encrypt) ∧
      ((sessionW .ready .decrypt).sst ≠ .uninit ∧ (sessionW .ready .decrypt).mode = some .decrypt ∧
        16 ≤ 16 + (sessionW .ready .decrypt).msgBuf.length ∧ 15 + (sessionW .ready .decrypt).msgBuf.length < 16) ∧
      unitW.sst = .uninit := by decide

theorem witness_ResetReopensSession : (sessionW .finalized .encrypt).sst ≠ .uninit ∧ unitW.sst = .uninit := by decide

theorem witness_SessionTransitions :
    SessionInv Config.attached (sessionW .ready .encrypt) ∧
      (∃ t, exec (.init true 16 12 0) (sessionW .ready .encrypt) = .next t) ∧
      (∃ t, exec (.aad 1) (sessionW .ready .encrypt) = .next t) ∧
      (∃ t, exec (.msg 1) (sessionW .ready .encrypt) = .next t) ∧
      (∃ t, exec (.osize 1) (sessionW .ready .encrypt) = .next t) ∧
      (∃ t, exec (.final 16) (sessionW .ready .encrypt) = .next t) ∧
      (∃ t, exec .reset (sessionW .ready .encrypt) = .next t) ∧
      (isUnit .pvSeed = true ∧ ∃ t, exec .pvSeed (sessionW .ready .encrypt) = .next t) :=
  ⟨sessionW_inv _ _ _, ⟨_, exec_eq_next.mpr ⟨by decide, rfl⟩⟩, ⟨_, exec_eq_next.mpr ⟨by decide, rfl⟩⟩,
    ⟨_, exec_eq_next.mpr ⟨by decide, rfl⟩⟩, ⟨_, exec_eq_next.mpr ⟨by decide, rfl⟩⟩,
    ⟨_, exec_eq_next.mpr ⟨by decide, rfl⟩⟩, ⟨_, exec_eq_next.mpr ⟨by decide, rfl⟩⟩, rfl,
    ⟨_, exec_eq_next.mpr ⟨by decide, rfl⟩⟩⟩

/-- At exactly the room needed. -/
theorem witness_FinalEncrypts : ∃ (p tag : Block) (ct : List Byte × Block),
    (sessionW .ready .encrypt).sst = .ready ∧ (sessionW .ready .encrypt).mode = some .encrypt ∧
      (sessionW .ready .encrypt).nonce = some 0 ∧ (sessionW .ready .encrypt).ckey = some (.k16 0) ∧
      (sessionW .ready .encrypt).mulH = some (seedH 0) ∧ (sessionW .ready .encrypt).msgBuf.length + 16 ≤ 16 ∧
      p = rev ((blocks [] ++ blocks [] ++ [ofBytes 128 (leBytes 8 (8 * 0) ++ leBytes 8 (8 * 0))]).foldl
        (fun a b => Config.attached.gfmul (a ^^^ rev b) (seedH 0)) 0) ∧
      tag = Config.attached.cipher (.k16 0) (tagPreimage p 0) ∧
      ct = ctrXor Config.attached (.k16 0) (top1 tag) [] :=
  ⟨_, _, _, rfl, rfl, rfl, rfl, rfl, by decide, rfl, rfl, rfl⟩

/-- A decrypting session that has buffered `msg`. -/
def decryptW (msg : List Byte) : State := { sessionW .ready .decrypt with msgBuf := msg }

/-- At exactly the room needed. -/
theorem witness_FinalDecrypts : ∃ (p : Block) (cand : List Byte × Block),
    (decryptW (zeros 17)).sst = .ready ∧ (decryptW (zeros 17)).mode = some .decrypt ∧
      (decryptW (zeros 17)).nonce = some 0 ∧ (decryptW (zeros 17)).ckey = some (.k16 0) ∧
      (decryptW (zeros 17)).mulH = some (seedH 0) ∧ (decryptW (zeros 17)).msgBuf = zeros 1 ++ zeros 16 ∧
      (zeros 16).length = 16 ∧ (zeros 1).length ≤ 1 ∧
      cand = ctrXor Config.attached (.k16 0) (top1 (ofBytes 128 (zeros 16))) (zeros 1) ∧
      p = rev ((blocks [] ++ blocks cand.1 ++
        [ofBytes 128 (leBytes 8 (8 * 0) ++ leBytes 8 (8 * cand.1.length))]).foldl
          (fun a b => Config.attached.gfmul (a ^^^ rev b) (seedH 0)) 0) :=
  ⟨_, _, rfl, rfl, rfl, rfl, rfl, by decide, by decide, by decide, rfl, rfl⟩

/-- Each clause at its boundary: one byte of room too little, 15 bytes buffered, one byte of room too little. -/
theorem witness_FinalCapacityErrors :
    ((sessionW .ready .encrypt).mode = some .encrypt ∧ 15 < (sessionW .ready .encrypt).msgBuf.length + 16) ∧
      ((decryptW (zeros 15)).mode = some .decrypt ∧ (decryptW (zeros 15)).msgBuf.length < 16) ∧
      ((decryptW (zeros 17)).mode = some .decrypt ∧ 16 ≤ (decryptW (zeros 17)).msgBuf.length ∧
        0 < (decryptW (zeros 17)).msgBuf.length - 16) ∧
      (decryptW (zeros 17)).sst = .ready := by decide

theorem witness_FinalOutsideReadyChangesNothing :
    unitW.sst ≠ .ready ∧ (sessionW .finalized .decrypt).sst ≠ .ready := by decide

/-- The tag of the one-byte message `h` under `decryptW`'s registers, whatever the cipher and the multiplier. -/
def tagW : Block := tagGen Config.attached (.k16 0) (seedH 0) 0 [] [0x68]

/-- The ciphertext of that message. -/
def ctW : List Byte := (ctrXor Config.attached (.k16 0) (top1 tagW) [0x68]).1

theorem ctW_length : ctW.length = 1 := by simp [ctW, ctrXor, piecesOf, blockCount, pieces, ctrXorPieces]

theorem ctW_decrypts : (ctrXor Config.attached (.k16 0) (top1 tagW) ctW).1 = [0x68] := by
  have hct : ctW = xorBytes [0x68] (bytesOf 16 (Config.attached.cipher (.k16 0) (top1 tagW))) := by
    simp [ctW, ctrXor, piecesOf, blockCount, pieces, ctrXorPieces]
  have hpieces : piecesOf ctW = [ctW] := by
    simp [piecesOf, blockCount, ctW_length, pieces, List.take_of_length_le]
  rw [ctrXor, hpieces]
  simp only [ctrXorPieces, List.append_nil]
  rw [hct, xorBytes_xorBytes _ _ (by simp)]

/-- A verified tag does release plaintext: one byte of it. -/
theorem witness_NoPlaintextWithoutVerifiedTag :
    ∃ (t : State) (rw : Word64) (payload : List Byte),
      (decryptW (ctW ++ bytesOf 16 tagW)).sst = .ready ∧ (decryptW (ctW ++ bytesOf 16 tagW)).mode = some .decrypt ∧
      exec (.final 1) (decryptW (ctW ++ bytesOf 16 tagW)) = .next t ∧
      t.output = (decryptW (ctW ++ bytesOf 16 tagW)).output ++ .word rw :: payload.map .byte ∧ payload ≠ [] := by
  refine ⟨_, responseWord .ok 1, [0x68], rfl, rfl, exec_eq_next.mpr ⟨Nat.zero_le _, rfl⟩, ?_, by simp⟩
  have hlen : (ctW ++ bytesOf 16 tagW).length = 17 := by simp [ctW_length]
  have htake : (ctW ++ bytesOf 16 tagW).take 1 = ctW := by rw [← ctW_length, List.take_left']; rfl
  have hdrop : (ctW ++ bytesOf 16 tagW).drop 1 = bytesOf 16 tagW := by rw [← ctW_length, List.drop_left']; rfl
  simp only [effect, finalBody, decryptW, sessionW, finalReady, finalCapacityError, finalDecrypt, hlen, htake, hdrop,
    ofBytes_bytesOf_block, ctW_decrypts, State.reset]
  have htag : ctEq (tagGen Config.attached (.k16 0) (seedH 0) 0 [] [0x68]) tagW = true := (ctEq_iff _ _).mpr rfl
  rw [if_pos trivial, if_neg (by decide), if_pos htag]
  rfl

theorem witness_SessionRoundTrip :
    ((zeros 16).length = 16 ∨ (zeros 16).length = 32) ∧ ((zeros 32).length = 16 ∨ (zeros 32).length = 32) ∧
      (zeros 12).length = 12 ∧ ([] : List Byte).length ≤ Config.attached.aadMax ∧
      ([] : List Byte).length ≤ Config.attached.msgMax ∧ ([] : List Byte).length + 16 ≤ 16 ∧
      ([] : List Byte).length ≤ 0 ∧
      ({ unitW with payIn := zeros 28 } : State).payIn = zeros 16 ++ zeros 12 ++ [] ++ [] ++ [] :=
  ⟨by decide, by decide, by decide, Nat.zero_le _, Nat.zero_le _, by decide, by decide, by decide⟩

theorem witness_SplitBufferingInvisible :
    (sessionW .ready .decrypt).sst = .ready ∧ (sessionW .ready .decrypt).payIn = [] ++ [] ++ zeros 64 ∧
      (sessionW .ready .decrypt).aadBuf.length + ([] : List Byte).length + ([] : List Byte).length
        ≤ Config.attached.aadMax ∧
      (sessionW .ready .decrypt).msgBuf.length + ([] : List Byte).length + ([] : List Byte).length
        ≤ Config.attached.msgMax :=
  ⟨rfl, rfl, Nat.zero_le _, Nat.zero_le _⟩

theorem witness_UnitCommandsLockedInSession :
    isUnit .tcCmp = true ∧ (sessionW .finalized .encrypt).sst ≠ .uninit ∧
      payloadLength .tcCmp ≤ (sessionW .finalized .encrypt).payIn.length ∧
      ∃ t, exec .tcCmp (sessionW .finalized .encrypt) = .next t :=
  ⟨rfl, by decide, by decide, _, rfl⟩

/-- One 16-byte operand at the head of the payload, in `Uninit` and in a session: the form of `PV.SEED`, `PV.BLK` and
`KS.LOAD`. -/
theorem witness_PvSeedSeedsMultiplier :
    unitW.payIn = zeros 16 ++ zeros 48 ∧ (zeros 16).length = 16 ∧ unitW.sst = .uninit ∧
      (sessionW .ready .encrypt).payIn = zeros 16 ++ zeros 48 ∧ (sessionW .ready .encrypt).sst ≠ .uninit := by decide

theorem witness_PvClrClearsAccumulator : unitW.sst = .uninit ∧ (sessionW .ready .encrypt).sst ≠ .uninit := by decide

/-- Seeded, unseeded, in a session. -/
theorem witness_PvBlkFoldsBlock :
    unitW.payIn = zeros 16 ++ zeros 48 ∧ (zeros 16).length = 16 ∧ unitW.sst = .uninit ∧ unitW.mulH = some 1 ∧
      ({ unitW with mulH := none } : State).mulH = none ∧
      (sessionW .ready .encrypt).payIn = zeros 16 ++ zeros 48 ∧ (sessionW .ready .encrypt).sst ≠ .uninit := by decide

/-- Seeded, unseeded, in a session; a sequence of 17 bytes and the empty one. -/
theorem witness_PvSeqAbsorbsSequence :
    unitW.payIn = zeros 17 ++ zeros 47 ∧ unitW.payIn = [] ++ zeros 64 ∧ unitW.sst = .uninit ∧ unitW.mulH = some 1 ∧
      ({ unitW with mulH := none } : State).mulH = none ∧
      (sessionW .ready .encrypt).payIn = zeros 17 ++ zeros 47 ∧ (sessionW .ready .encrypt).sst ≠ .uninit := by decide

/-- The largest count; seeded, unseeded, in a session. -/
theorem witness_PvLenFoldsLengthBlock :
    2 ^ 64 - 1 < 2 ^ 64 ∧
      ({ unitW with payIn := leBytes 8 (2 ^ 64 - 1) ++ leBytes 8 0 ++ [] } : State).payIn
        = leBytes 8 (2 ^ 64 - 1) ++ leBytes 8 0 ++ [] ∧
      unitW.sst = .uninit ∧ unitW.mulH = some 1 ∧ ({ unitW with mulH := none } : State).mulH = none ∧
      (sessionW .ready .encrypt).payIn = leBytes 8 0 ++ leBytes 8 0 ++ zeros 48 ∧
      (sessionW .ready .encrypt).sst ≠ .uninit := by decide +kernel

theorem witness_PvOutReadsAccumulator : unitW.sst = .uninit ∧ (sessionW .ready .encrypt).sst ≠ .uninit := by decide

/-- Keys of 16, 32 and 17 bytes; in a session. -/
theorem witness_KsKeyKeysCipher :
    unitW.payIn = zeros 16 ++ zeros 48 ∧ unitW.payIn = zeros 32 ++ zeros 32 ∧ unitW.payIn = zeros 17 ++ zeros 47 ∧
      unitW.sst = .uninit ∧ (zeros 16).length = 16 ∧ (zeros 32).length = 32 ∧ (zeros 17).length ≠ 16 ∧
      (zeros 17).length ≠ 32 ∧ (sessionW .ready .encrypt).payIn = zeros 16 ++ zeros 48 ∧
      (sessionW .ready .encrypt).sst ≠ .uninit := by decide

theorem witness_KsLoadLoadsCounter :
    unitW.payIn = zeros 16 ++ zeros 48 ∧ (zeros 16).length = 16 ∧ unitW.sst = .uninit ∧
      (sessionW .ready .encrypt).payIn = zeros 16 ++ zeros 48 ∧ (sessionW .ready .encrypt).sst ≠ .uninit := by decide

/-- Keyed and loaded; no key; no counter; in a session. -/
theorem witness_KsRunEncipherStream :
    unitW.payIn = zeros 17 ++ zeros 47 ∧ unitW.sst = .uninit ∧
      (unitW.ckey = some (.k16 0x000102030405060708090a0b0c0d0e0f) ∧
        unitW.ctr = some 0xf0f1f2f3f4f5f6f7f8f9fafbfcfdfe8f) ∧
      ({ unitW with ckey := none } : State).ckey = none ∧ ({ unitW with ctr := none } : State).ctr = none ∧
      (sessionW .ready .encrypt).payIn = zeros 17 ++ zeros 47 ∧ (sessionW .ready .encrypt).sst ≠ .uninit := by decide

theorem witness_KsCtrReadsCounter :
    unitW.sst = .uninit ∧ unitW.ctr = some 0xf0f1f2f3f4f5f6f7f8f9fafbfcfdfe8f ∧
      (State.reset.sst = .uninit ∧ State.reset.ctr = none) ∧ (sessionW .ready .encrypt).sst ≠ .uninit := by decide

theorem witness_TcCmpComparesTags :
    unitW.payIn = zeros 16 ++ zeros 16 ++ zeros 32 ∧ (zeros 16).length = 16 ∧ unitW.sst = .uninit ∧
      (sessionW .ready .encrypt).payIn = zeros 16 ++ zeros 16 ++ zeros 32 ∧
      (sessionW .ready .encrypt).sst ≠ .uninit := by decide

theorem witness_RevReversesBytes : 0 < 16 ∧ 15 < 16 := by decide

theorem witness_MulXBytewise : (1 ≤ 1 ∧ 1 < 16) ∧ (1 ≤ 15 ∧ 15 < 16) := by decide

theorem witness_ReferenceFoldIsPolyvalDot : toy.gfmul = gmul := by simp only [toy]

theorem witness_ReferenceHashIsLinear :
    toy.gfmul = gmul ∧ ([1, 2] : List Block).length = ([3, 4] : List Block).length :=
  ⟨by simp only [toy], rfl⟩

/-- Two whole splits; the last data byte of a 17-byte sequence, and the first padding byte after it. -/
theorem witness_AbsorbSplitsAtBlocks :
    ((zeros 16).length % 16 = 0 ∧ ([] : List Byte).length % 16 = 0) ∧
      (blocks (List.replicate 17 0xFF))[1]? = some 0xFF000000000000000000000000000000 ∧ 0 < 16 ∧ 1 < 16 ∧
      16 * 1 + 0 < (List.replicate 17 (0xFF : Byte)).length ∧
      ¬ 16 * 1 + 1 < (List.replicate 17 (0xFF : Byte)).length := by
  decide

theorem witness_Top1ForcesTopBit : 0 < 15 ∧ 14 < 15 := by decide

/-- The last byte of a full block, and the first byte after it. -/
theorem witness_CtrXorBytes : (15 < 16 ∧ 16 * 0 + 15 < (zeros 17).length) ∧ (0 < 16 ∧ 16 * 1 + 0 < (zeros 17).length) := by
  decide

theorem witness_KeyDerivationSlices :
    (∃ half : Nat → List Byte,
      ∀ i, half i = (bytesOf 16 (toy.cipher (.k16 0) (BitVec.ofNat 8 i ++ 0#24 ++ (0 : Nonce)))).take 8) ∧
      (∃ k, Key.k16 0 = .k16 k) ∧ (∃ k, Key.k32 0 = .k32 k) :=
  ⟨⟨_, fun _ => rfl⟩, ⟨0, rfl⟩, ⟨0, rfl⟩⟩

theorem witness_TagPreimageBytes : (12 ≤ 12 ∧ 12 < 15) ∧ (12 ≤ 14 ∧ 14 < 15) := by decide

theorem witness_UnitRegistersUnobservableInSession :
    SameButUnitRegisters (sessionW .ready .encrypt) { sessionW .ready .encrypt with acc := 1, ctr := some 2 } ∧
      (sessionW .ready .encrypt).sst ≠ .uninit ∧ ∃ s', exec (.final 16) (sessionW .ready .encrypt) = .next s' :=
  ⟨rfl, by decide, _, exec_eq_next.mpr ⟨Nat.zero_le _, rfl⟩⟩

theorem witness_SecretsUnobservableInSession :
    SameButSecrets (sessionW .ready .encrypt)
        { sessionW .ready .encrypt with macKey := some 3, encKey := some (.k32 4), ckey := some (.k32 4), mulH := some 5 } ∧
      (sessionW .ready .encrypt).sst ≠ .uninit ∧ isFinal .reset = false ∧
      ∃ s', exec .reset (sessionW .ready .encrypt) = .next s' :=
  ⟨rfl, by decide, rfl, _, rfl⟩

theorem witness_DerivedKeyRegistersNeverAnswered :
    ∃ s', exec (.final 16) (sessionW .ready .encrypt) = .next s' := ⟨_, exec_eq_next.mpr ⟨Nat.zero_le _, rfl⟩⟩

/-- The last byte of an 8-byte number, and the first and last bytes of a block. -/
theorem witness_ByteOrderOfSequences : 7 < 8 ∧ (zeros 16).length = 16 ∧ 0 < 16 ∧ 15 < 16 := by decide

end Sys2Proof.Tests
end

/-! PROOFS. Byte order, the length block and the tag pre-image (`00_scope.md` rules R11 to R13). The rules about one
byte of a block under the bitwise operators and the conversions come first; each statement is put together from them. -/

namespace Sys2Proof.Machine

/-! ## Bytes of a block -/

/-- Byte `i` of the bytes of a block, in the optional reading of a list (rule R11). -/
theorem bytesOf16_getElem? (b : Block) (i : Nat) (hi : i < 16) : (bytesOf 16 b)[i]? = some (byteAt b i) := by
  rw [List.getElem?_eq_getElem (by simpa using hi), bytesOf16_getElem]

/-- Byte `i` of the block made of 16 bytes is the `i`-th of them (rule R11). -/
theorem getElem?_eq_byteAt_ofBytes (s : List Byte) (i : Nat) (hs : s.length = 16) (hi : i < 16) :
    s[i]? = some (byteAt (ofBytes 128 s) i) := by
  rw [← bytesOf16_getElem? _ _ hi, bytesOf_ofBytes_block s hs]

@[simp] theorem byteAt_and (a b : Block) (i : Nat) : byteAt (a &&& b) i = byteAt a i &&& byteAt b i :=
  BitVec.extractLsb'_and

@[simp] theorem byteAt_xor (a b : Block) (i : Nat) : byteAt (a ^^^ b) i = byteAt a i ^^^ byteAt b i :=
  BitVec.extractLsb'_xor

/-! ## Little-endian numbers -/

/-- Byte `i` of the little-endian form of `v` is `(v >> 8i) & 0xff` (rule R13). -/
theorem leBytes_getElem? (n v i : Nat) (hi : i < n) :
    (leBytes n v)[i]? = some (BitVec.ofNat 8 (v / 2 ^ (8 * i) % 2 ^ 8)) := by
  induction n generalizing v i with
  | zero => omega
  | succ n ih =>
    rw [leBytes]
    cases i with
    | zero => exact congrArg some (BitVec.eq_of_toNat_eq (by simp))
    | succ i =>
      have hshift : v / 2 ^ (8 * (i + 1)) = v / 2 ^ 8 / 2 ^ (8 * i) := by
        rw [Nat.div_div_eq_div_mul, ← Nat.pow_add, Nat.mul_succ, Nat.add_comm]
      rw [List.getElem?_cons_succ, ih _ _ (by omega), hshift]

/-- Settles O60: the little-endian form by induction on its length, the block views from `bytesOf` and `ofBytes` being
inverse. -/
theorem byteOrderOfSequences : Obligations.ByteOrderOfSequences :=
  ⟨leBytes_getElem?, fun n v => ⟨leBytes_length n v, leNat_leBytes n v⟩, getElem?_eq_byteAt_ofBytes,
    bytesOf16_getElem?⟩

/-! ## The length block -/

/-- The bytes of the length block: two little-endian numbers of 8 bytes, associated data first (rule R150). -/
theorem bytesOf_lenBlock (a m : Nat) : bytesOf 16 (lenBlock a m) = leBytes 8 (8 * a) ++ leBytes 8 (8 * m) :=
  bytesOf_ofBytes_block _ (by simp)

/-- Settles O50: each half of the length block's bytes is a little-endian form, which reads back modulo `2^64`. -/
theorem lenBlockHoldsBitLengths : Obligations.LenBlockHoldsBitLengths := by
  intro a m
  rw [bytesOf_lenBlock, List.take_left' (leBytes_length _ _), List.drop_left' (leBytes_length _ _)]
  exact ⟨leNat_leBytes 8 (8 * a), leNat_leBytes 8 (8 * m)⟩

/-! ## The tag pre-image -/

/-- The nonce stands in bytes 0 to 11 of the block it is extended to (rule R190). -/
theorem byteAt_nonce_append (nonce : Nonce) (i : Nat) (h : i < (bytesOf 12 nonce).length) :
    byteAt (nonce ++ 0#32) i = (bytesOf 12 nonce)[i] := by
  rw [bytesOf_length] at h
  have hplace : 8 * (15 - i) - 32 = 8 * (12 - 1 - i) := by omega
  rw [bytesOf_getElem, byteAt, BitVec.extractLsb'_append_eq_of_le (by omega), hplace]

/-- Bytes 12 to 15 of the block the nonce is extended to are 0 (rule R190). -/
theorem byteAt_nonce_append_of_ge (nonce : Nonce) (i : Nat) (h : 12 ≤ i) : byteAt (nonce ++ 0#32) i = 0#8 := by
  rw [byteAt, BitVec.extractLsb'_append_eq_of_add_le (by omega)]
  simp

/-- The clearing of the top bit of byte 15 leaves every earlier byte as it was (rules R12, R190). -/
theorem byteAt_tagPreimage_of_lt (p : Block) (nonce : Nonce) (i : Nat) (h : i < 15) :
    byteAt (tagPreimage p nonce) i = byteAt p i ^^^ byteAt (nonce ++ 0#32) i := by
  have hmask : ∀ j < 15, byteAt 0xFFFFFFFFFFFFFFFFFFFFFFFFFFFFFF7F#128 j = BitVec.allOnes 8 := by decide
  rw [tagPreimage, byteAt_and, byteAt_xor, hmask i h, BitVec.and_allOnes]

/-- Byte 15 of the pre-image, where no nonce byte stands, loses its top bit (rules R12, R190). -/
theorem byteAt_tagPreimage_last (p : Block) (nonce : Nonce) :
    byteAt (tagPreimage p nonce) 15 = byteAt p 15 &&& 0x7F := by
  have hmask : byteAt 0xFFFFFFFFFFFFFFFFFFFFFFFFFFFFFF7F#128 15 = 0x7F := by decide
  rw [tagPreimage, byteAt_and, byteAt_xor, byteAt_nonce_append_of_ge _ _ (by omega), hmask,
    BitVec.xor_zero]

/-- Settles O56: bytes 0 to 11 meet the nonce, bytes 12 to 14 meet neither the nonce nor the mask, byte 15 only the
mask. -/
theorem tagPreimageBytes : Obligations.TagPreimageBytes := by
  intro p nonce
  refine ⟨?nonceBytes, ?keptBytes, byteAt_tagPreimage_last p nonce⟩
  case nonceBytes =>
    apply List.ext_getElem (by simp)
    intro i hi _
    have hlt : i < 12 := by simpa using hi
    simp only [xorBytes, List.getElem_zipWith, List.getElem_take, bytesOf16_getElem]
    rw [byteAt_tagPreimage_of_lt _ _ _ (by omega), byteAt_nonce_append _ _ (by simpa using hlt)]
  case keptBytes =>
    intro i hge hlt
    rw [byteAt_tagPreimage_of_lt _ _ _ hlt, byteAt_nonce_append_of_ge _ _ hge, BitVec.xor_zero]

end Sys2Proof.Machine

/-! PROOFS. What every step keeps and what no command lets out (`10_state.md` section 5; rules R38 to R40, R250, R261).
Three layers come first: what a command can do to the session (`SessionMove`), which registers a command reads
(`SameBut`), and what a decrypting `FINAL` delivers. Each statement is then a short use of one of them. -/

namespace Sys2Proof.Machine

/-! ## What a command can do to the session -/

/-- What a command can do to the state, its response aside: the one list the invariants are checked against. -/
inductive SessionMove (c : Config) (s : State) : State → Prop
  /-- an error, or a command that only answers -/
  | stay : SessionMove c s s
  /-- a unit command, which the lock lets through in `Uninit` only (rule R79) -/
  | useUnits (acc : Block) (ctr : Option Block) (ckey : Option Key) (mulH : Option Block) (huninit : s.sst = .uninit) :
    SessionMove c s { s with acc := acc, ctr := ctr, ckey := ckey, mulH := mulH }
  /-- a valid `INIT` (rule R103) -/
  | start (enc : Bool) (master : Key) (nonce : Nonce) (a0 : List Byte) (hfit : a0.length ≤ c.aadMax) :
    SessionMove c s (startSession c enc master nonce a0 s)
  /-- `AAD` with room for its payload (rule R104) -/
  | addAad (data : List Byte) (hready : s.sst = .ready) (hfit : s.aadBuf.length + data.length ≤ c.aadMax) :
    SessionMove c s (appendAad data s)
  /-- `MSG` with room for its payload (rule R105) -/
  | addMsg (data : List Byte) (hready : s.sst = .ready)
      (hfit : s.msgBuf.length + data.length ≤ msgBufLimit c s.mode) :
    SessionMove c s (appendMsg data s)
  /-- `RESET` in a session (rule R107) -/
  | reopen (hsession : s.sst ≠ .uninit) : SessionMove c s { resetBuf s with sst := .ready }
  /-- `FINAL` in `Ready`, whatever its status (rule R195) -/
  | close (acc : Block) (ctr : Option Block) (hready : s.sst = .ready) :
    SessionMove c s (finishSession { s with acc := acc, ctr := ctr })

/-- `t` is a response after one move from `s`. -/
def AnswersAfterMove (c : Config) (s t : State) : Prop :=
  ∃ (u : State) (st : Status) (val : BitVec 56) (payload : List Byte),
    SessionMove c s u ∧ t = respond st val payload u

section
variable {c : Config} {s u : State}

theorem SessionMove.answered (h : SessionMove c s u) (st : Status) (val : BitVec 56) (payload : List Byte) :
    AnswersAfterMove c s (respond st val payload u) :=
  ⟨u, st, val, payload, h, rfl⟩

theorem SessionMove.answeredOk (h : SessionMove c s u) (val : Nat) (payload : List Byte) :
    AnswersAfterMove c s (respondOk val payload u) :=
  h.answered _ _ _

theorem SessionMove.raised (h : SessionMove c s u) (st : Status) : AnswersAfterMove c s (raise st u) :=
  h.answered _ _ _

/-! ### Session commands -/

/-- The initial associated data of a whole `INIT` payload is what `ALEN` counts (rule R74). -/
theorem initAadBytes_length {klen nlen alen : Nat} {p : List Byte} (hp : p.length = klen + nlen + alen) :
    (initAadBytes klen nlen p).length = alen := by
  simp [initAadBytes, hp]

theorem initBody_moves {klen nlen alen : Nat} {p : List Byte} (enc : Bool) (hp : p.length = klen + nlen + alen) :
    AnswersAfterMove c s (initBody c enc klen nlen alen p s) := by
  unfold initBody
  split
  · split
    next hlens =>
      exact (SessionMove.start _ _ _ _ ((initAadBytes_length hp).trans_le hlens.2)).answeredOk _ _
    next => exact SessionMove.stay.raised _
  · exact SessionMove.stay.raised _

theorem aadBody_moves (data : List Byte) : AnswersAfterMove c s (aadBody c data s) := by
  unfold aadBody
  split
  next hready =>
    split
    next hfit => exact (SessionMove.addAad data hready hfit).answeredOk _ _
    next => exact SessionMove.stay.raised _
  next => exact SessionMove.stay.raised _

theorem msgBody_moves (data : List Byte) : AnswersAfterMove c s (msgBody c data s) := by
  unfold msgBody
  split
  next hready =>
    split
    next hfit => exact (SessionMove.addMsg data hready hfit).answeredOk _ _
    next => exact SessionMove.stay.raised _
  next => exact SessionMove.stay.raised _

theorem osizeBody_moves (pendingLen : Nat) : AnswersAfterMove c s (osizeBody pendingLen s) := by
  unfold osizeBody
  split
  · exact SessionMove.stay.raised _
  · split
    · exact SessionMove.stay.answeredOk _ _
    · exact SessionMove.stay.raised _

theorem resetBody_moves : AnswersAfterMove c s (resetBody s) := by
  unfold resetBody
  split
  · exact SessionMove.stay.answeredOk _ _
  next hsession => exact (SessionMove.reopen hsession).answeredOk _ _

theorem finalEncrypt_moves (k : Key) (h : Block) (nonce : Nonce) (hready : s.sst = .ready) :
    AnswersAfterMove c s (finalEncrypt c k h nonce s) :=
  (SessionMove.close _ _ hready).answeredOk _ _

/-- The tag a decrypting `FINAL` was given: the last 16 bytes of the message buffer (rule R196). -/
def suppliedTag (s : State) : Block := ofBytes 128 (s.msgBuf.drop (s.msgBuf.length - 16))

/-- The candidate plaintext of a decrypting `FINAL`, and the counter after it (rule R196). -/
def candidate (c : Config) (k : Key) (s : State) : List Byte × Block :=
  ctrXor c k (top1 (suppliedTag s)) (s.msgBuf.take (s.msgBuf.length - 16))

/-- The state a decrypting `FINAL` leaves, whatever the comparison of the tags says (rules R195, R196). -/
def decryptDone (c : Config) (k : Key) (h : Block) (s : State) : State :=
  finishSession
    { s with acc := polyvalAcc c h s.aadBuf (candidate c k s).1, ctr := some (candidate c k s).2 }

/-- The tags are equal: the candidate is released (rule R196). -/
theorem finalDecrypt_of_tag_eq {k : Key} {h : Block} {nonce : Nonce}
    (htag : tagGen c k h nonce s.aadBuf (candidate c k s).1 = suppliedTag s) :
    finalDecrypt c k h nonce s =
      respondOk (candidate c k s).1.length (candidate c k s).1 (decryptDone c k h s) :=
  if_pos ((ctEq_iff _ _).mpr htag)

/-- The tags differ: nothing is released (rule R196). -/
theorem finalDecrypt_of_tag_ne {k : Key} {h : Block} {nonce : Nonce}
    (htag : tagGen c k h nonce s.aadBuf (candidate c k s).1 ≠ suppliedTag s) :
    finalDecrypt c k h nonce s = raise .authenticationError (decryptDone c k h s) :=
  if_neg fun heq => htag ((ctEq_iff _ _).mp heq)

theorem finalDecrypt_moves (k : Key) (h : Block) (nonce : Nonce) (hready : s.sst = .ready) :
    AnswersAfterMove c s (finalDecrypt c k h nonce s) := by
  by_cases htag : tagGen c k h nonce s.aadBuf (candidate c k s).1 = suppliedTag s
  · rw [finalDecrypt_of_tag_eq htag]
    exact (SessionMove.close _ _ hready).answeredOk _ _
  · rw [finalDecrypt_of_tag_ne htag]
    exact (SessionMove.close _ _ hready).raised _

theorem finalBody_moves (ocap : Nat) : AnswersAfterMove c s (finalBody c ocap s) := by
  unfold finalBody
  split
  next hready =>
    unfold finalReady
    split
    · exact SessionMove.stay.raised _
    · split
      · exact (SessionMove.close s.acc s.ctr hready).raised _
      · split
        · split
          · exact finalEncrypt_moves _ _ _ hready
          · exact finalDecrypt_moves _ _ _ hready
        · exact SessionMove.stay.raised _
  next => exact SessionMove.stay.raised _

/-! ### Unit commands -/

/-- A unit command moves as its body does in `Uninit`; the lock answers an error in a session (rule R79). -/
theorem unitCommand_moves {body : State → State} (hbody : s.sst = .uninit → AnswersAfterMove c s (body s)) :
    AnswersAfterMove c s (unitCommand body s) := by
  by_cases huninit : s.sst = .uninit
  · rw [unitCommand_of_uninit huninit]
    exact hbody huninit
  · rw [unitCommand_of_session huninit]
    exact SessionMove.stay.raised _

theorem writeAcc_moves (acc : Block) (huninit : s.sst = .uninit) : AnswersAfterMove c s (writeAcc acc s) :=
  (SessionMove.useUnits acc s.ctr s.ckey s.mulH huninit).answeredOk _ _

/-- The three folding commands: write the accumulator once the multiplier is seeded (rule R147). -/
theorem whenSeeded_writeAcc_moves (newAcc : Block → State → Block) (huninit : s.sst = .uninit) :
    AnswersAfterMove c s (whenSeeded (fun h s => writeAcc (newAcc h s) s) s) := by
  cases hseed : s.mulH with
  | none =>
    rw [whenSeeded_none hseed]
    exact SessionMove.stay.raised _
  | some h =>
    rw [whenSeeded_some hseed]
    exact writeAcc_moves _ huninit

theorem pvSeedBody_moves (p : List Byte) (huninit : s.sst = .uninit) : AnswersAfterMove c s (pvSeedBody p s) :=
  (SessionMove.useUnits s.acc s.ctr s.ckey _ huninit).answeredOk _ _

theorem ksKeyBody_moves (p : List Byte) (huninit : s.sst = .uninit) : AnswersAfterMove c s (ksKeyBody p s) := by
  unfold ksKeyBody
  split
  · exact (SessionMove.useUnits s.acc s.ctr _ s.mulH huninit).answeredOk _ _
  · exact SessionMove.stay.raised _

theorem ksLoadBody_moves (p : List Byte) (huninit : s.sst = .uninit) : AnswersAfterMove c s (ksLoadBody p s) :=
  (SessionMove.useUnits s.acc _ s.ckey s.mulH huninit).answeredOk _ _

theorem ksRunBody_moves (p : List Byte) (huninit : s.sst = .uninit) : AnswersAfterMove c s (ksRunBody c p s) := by
  unfold ksRunBody
  split
  · exact (SessionMove.useUnits s.acc _ s.ckey s.mulH huninit).answeredOk _ _
  · exact SessionMove.stay.raised _

theorem ksCtrBody_moves : AnswersAfterMove c s (ksCtrBody s) := by
  unfold ksCtrBody
  split
  · exact SessionMove.stay.answeredOk _ _
  · exact SessionMove.stay.raised _

end

/-! ### Every command, every step -/

/-- Every command answers after one of the moves; only `INIT` needs its payload to be whole. -/
theorem effect_moves (i : Instr) {p : List Byte} (hp : p.length = payloadLength i) (s : State) :
    AnswersAfterMove Config.attached s (effect i p s) := by
  cases i with
  | init enc klen nlen alen => exact initBody_moves enc hp
  | aad len => exact aadBody_moves p
  | msg len => exact msgBody_moves p
  | osize pendingLen => exact osizeBody_moves pendingLen
  | final ocap => exact finalBody_moves ocap
  | reset => exact resetBody_moves
  | pvSeed => exact unitCommand_moves (pvSeedBody_moves p)
  | pvClr => exact unitCommand_moves (writeAcc_moves 0)
  | pvBlk | pvSeq len | pvLen => exact unitCommand_moves (whenSeeded_writeAcc_moves _)
  | pvOut | tcCmp => exact unitCommand_moves fun _ => SessionMove.stay.answeredOk _ _
  | ksKey klen => exact unitCommand_moves (ksKeyBody_moves p)
  | ksLoad => exact unitCommand_moves (ksLoadBody_moves p)
  | ksRun len => exact unitCommand_moves (ksRunBody_moves p)
  | ksCtr => exact unitCommand_moves fun _ => ksCtrBody_moves

/-- A completing command answers after one of the moves of the state that has given up its payload. -/
theorem exec_moves {i : Instr} {s t : State} (h : exec i s = .next t) :
    AnswersAfterMove Config.attached { s with payIn := s.payIn.drop (payloadLength i) } t := by
  obtain ⟨hlen, rfl⟩ := exec_eq_next.mp h
  exact effect_moves i (by simpa using hlen) _

/-- What one step can be: idling, a hardware reset, a reserved word, a command (rules R57, R77, R237, R250). -/
inductive StepCase (s t : State) : Prop
  | idle (hnone : s.hostIn = []) (ht : t = s)
  | reset (rest : List HostEvent) (hin : s.hostIn = .hardwareReset :: rest)
      (ht : t = hardwareReset { s with hostIn := rest })
  | illegal (w : Word64) (rest : List HostEvent) (hin : s.hostIn = .command w :: rest)
      (ht : t = illegalWord { s with hostIn := rest })
  | command (w : Word64) (rest : List HostEvent) (i : Instr) (hin : s.hostIn = .command w :: rest)
      (hdecode : decode w = .ok i) (hexec : exec i { s with hostIn := rest } = .next t)

theorem step_cases {s t : State} (h : step s = .next t) : StepCase s t := by
  match hin : s.hostIn with
  | [] =>
    simp only [step, nextEvent_of_nil hin, Host.Outcome.next.injEq] at h
    exact .idle hin h.symm
  | .hardwareReset :: rest =>
    simp only [step, nextEvent_of_cons hin, Host.Outcome.next.injEq] at h
    exact .reset rest hin h.symm
  | .command w :: rest =>
    cases hdecode : decode w with
    | ok i =>
      simp only [step, nextEvent_of_cons hin, hdecode] at h
      exact .command w rest i hin hdecode h
    | error e =>
      simp only [step, nextEvent_of_cons hin, hdecode, Host.Outcome.next.injEq] at h
      exact .illegal w rest hin h.symm

/-- A property that does not look at the ports, holds after a hardware reset and is kept by every move is kept by
every step. -/
theorem step_keeps {P : State → Prop}
    (hports : ∀ (s : State) hostIn payIn output,
      P s → P { s with hostIn := hostIn, payIn := payIn, output := output })
    (hreset : ∀ s, P (hardwareReset s))
    (hmove : ∀ s u, P s → SessionMove Config.attached s u → P u)
    {s t : State} (hs : P s) (h : step s = .next t) : P t := by
  cases step_cases h with
  | idle _ ht => exact ht ▸ hs
  | reset rest _ ht => exact ht ▸ hreset _
  | illegal w rest _ ht => exact ht ▸ hports s rest s.payIn _ hs
  | command w rest i _ _ hexec =>
    obtain ⟨u, st, val, payload, hsu, rfl⟩ := exec_moves hexec
    have htaken := hports s rest (s.payIn.drop (payloadLength i)) s.output hs
    exact hports u u.hostIn u.payIn _ (hmove _ _ htaken hsu)

/-! ## Reset -/

/-- Settles O8: the step is `hardwareReset` of the state that has taken the event. -/
theorem hardwareResetRestoresResetValues : Obligations.HardwareResetRestoresResetValues := by
  intro s rest hin
  simp only [step, nextEvent_of_cons hin]
  rfl

/-- Settles O9: the fields of `State.reset`, read off one by one. -/
theorem resetValues : Obligations.ResetValues :=
  ⟨rfl, rfl, rfl, rfl, rfl, rfl, rfl, rfl, rfl, rfl, rfl, rfl⟩

/-- Settles O11: the buffers are empty at reset, and no session has begun. -/
theorem resetMeetsSessionInv : Obligations.ResetMeetsSessionInv where
  buffers_fit := memory_wf_reset _
  empty_outside_ready := fun _ => ⟨rfl, rfl⟩
  registers_hold := fun hsession => absurd rfl hsession
  collaborators_keyed := fun hsession => absurd rfl hsession

/-! ## Invariants -/

section
variable {c : Config} {s u : State}

theorem SessionInv.withPorts (h : SessionInv c s) (hostIn : List HostEvent) (payIn : List Byte)
    (output : List PortOut) : SessionInv c { s with hostIn := hostIn, payIn := payIn, output := output } :=
  ⟨h.buffers_fit, h.empty_outside_ready, h.registers_hold, h.collaborators_keyed⟩

theorem sessionInv_hardwareReset (c : Config) (s : State) : SessionInv c (hardwareReset s) where
  buffers_fit := memory_wf_hardwareReset c s
  empty_outside_ready := fun _ => ⟨rfl, rfl⟩
  registers_hold := fun hsession => absurd rfl hsession
  collaborators_keyed := fun hsession => absurd rfl hsession

/-- Every move keeps the invariants of rule R39: `INIT` establishes them, the buffer operations keep the capacity and
the registers, and the unit commands write only where nothing is claimed of `ckey` and `mulH`. -/
theorem SessionInv.move (h : SessionInv c s) (hmove : SessionMove c s u) : SessionInv c u := by
  cases hmove with
  | stay => exact h
  | useUnits acc ctr ckey mulH huninit =>
    exact ⟨h.buffers_fit, h.empty_outside_ready, h.registers_hold, fun hsession => absurd huninit hsession⟩
  | start enc master nonce a0 hfit =>
    exact ⟨memory_wf_startSession hfit, fun hnot => absurd rfl hnot, fun _ => ⟨rfl, rfl, rfl, rfl⟩,
      fun _ => ⟨rfl, rfl⟩⟩
  | addAad data hready hfit =>
    exact ⟨memory_wf_appendAad h.buffers_fit hfit, fun hnot => absurd hready hnot, h.registers_hold,
      h.collaborators_keyed⟩
  | addMsg data hready hfit =>
    exact ⟨memory_wf_appendMsg h.buffers_fit hfit, fun hnot => absurd hready hnot, h.registers_hold,
      h.collaborators_keyed⟩
  | reopen hsession =>
    exact ⟨memory_wf_resetBuf h.buffers_fit, fun hnot => absurd rfl hnot, fun _ => h.registers_hold hsession,
      fun _ => h.collaborators_keyed hsession⟩
  | close acc ctr hready =>
    have hsession : s.sst ≠ .uninit := by simp [hready]
    exact ⟨memory_wf_finishSession h.buffers_fit, fun _ => ⟨rfl, rfl⟩, fun _ => h.registers_hold hsession,
      fun _ => h.collaborators_keyed hsession⟩

/-- Every move keeps the session registers empty in `Uninit`: a move that writes one leaves `Uninit`. -/
theorem NoSessionInUninit.move (h : NoSessionInUninit s) (hmove : SessionMove c s u) : NoSessionInUninit u := by
  cases hmove with
  | stay | useUnits | addAad | addMsg => exact h
  | start | reopen | close => exact nofun

/-- No move leads back to `Uninit` (rule R250). -/
theorem SessionMove.sst_ne_uninit (hmove : SessionMove c s u) (hs : s.sst ≠ .uninit) : u.sst ≠ .uninit := by
  cases hmove with
  | stay | useUnits | addAad | addMsg => exact hs
  | start | reopen | close => exact nofun

end

/-- No command ends a session by leading back to `Uninit` (rules R107, R250). -/
theorem exec_sst_ne_uninit {i : Instr} {s t : State} (h : exec i s = .next t) (hs : s.sst ≠ .uninit) :
    t.sst ≠ .uninit := by
  obtain ⟨u, st, val, payload, hmove, rfl⟩ := exec_moves h
  exact hmove.sst_ne_uninit hs

/-- Settles O12: the invariants ignore the ports, hold after a hardware reset and are kept by every move. -/
theorem stepKeepsSessionInv : Obligations.StepKeepsSessionInv := fun _ _ hs h =>
  step_keeps (fun _ hostIn payIn output hs => hs.withPorts hostIn payIn output) (sessionInv_hardwareReset _)
    (fun _ _ hs => hs.move) hs h

/-- Settles O13: at reset nothing is held, and every move that writes a session register leaves `Uninit`. -/
theorem noSessionRegisterInUninit : Obligations.NoSessionRegisterInUninit :=
  ⟨fun _ => ⟨rfl, rfl, rfl, rfl, rfl⟩, fun _ _ hs h =>
    step_keeps (P := NoSessionInUninit) (fun _ _ _ _ hs => hs) (fun _ _ => ⟨rfl, rfl, rfl, rfl, rfl⟩)
      (fun _ _ hs => hs.move) hs h⟩

end Sys2Proof.Machine

/-! PROOFS. Which of the hidden registers a command reads (rules R29 to R34, R40, R261): two states that agree on
everything but some of these registers, and on what the command reads, are treated alike. -/

namespace Sys2Proof.Machine

/-! ## States that agree except on hidden registers -/

/-- The registers no response shows by itself: those of rule R40 with `nonce`, `acc` and `ctr`. -/
inductive HiddenRegister where
  | nonce
  | macKey
  | encKey
  | acc
  | ctr
  | ckey
  | mulH
deriving DecidableEq

/-- The two states agree on everything but the registers listed. -/
structure SameBut (hidden : List HiddenRegister) (s t : State) : Prop where
  sst : t.sst = s.sst
  mode : t.mode = s.mode
  aad0 : t.aad0 = s.aad0
  aadBuf : t.aadBuf = s.aadBuf
  msgBuf : t.msgBuf = s.msgBuf
  hostIn : t.hostIn = s.hostIn
  payIn : t.payIn = s.payIn
  output : t.output = s.output
  nonce : .nonce ∉ hidden → t.nonce = s.nonce
  macKey : .macKey ∉ hidden → t.macKey = s.macKey
  encKey : .encKey ∉ hidden → t.encKey = s.encKey
  acc : .acc ∉ hidden → t.acc = s.acc
  ctr : .ctr ∉ hidden → t.ctr = s.ctr
  ckey : .ckey ∉ hidden → t.ckey = s.ckey
  mulH : .mulH ∉ hidden → t.mulH = s.mulH

/-- The hidden registers of `SameButUnitRegisters`. -/
def unitRegisters : List HiddenRegister := [.acc, .ctr]

/-- The hidden registers of `SameButSecrets`. -/
def secretRegisters : List HiddenRegister := [.nonce, .macKey, .encKey, .ckey, .mulH, .acc, .ctr]

/-- The two registers `INIT` derives and no command reads (rules R29, R30). -/
def derivedKeyRegisters : List HiddenRegister := [.macKey, .encKey]

section
variable {hidden : List HiddenRegister} {s t : State}

/-- Whatever is hidden, the second state is the first with at most the seven hidden registers overwritten. -/
theorem SameBut.eq_overwrite (h : SameBut hidden s t) :
    t = { s with nonce := t.nonce, macKey := t.macKey, encKey := t.encKey, ckey := t.ckey, mulH := t.mulH,
                 acc := t.acc, ctr := t.ctr } := by
  obtain ⟨hsst, hmode, haad0, haadBuf, hmsgBuf, hhostIn, hpayIn, houtput⟩ := h
  cases s
  cases t
  simp_all

theorem sameButUnitRegisters_iff : SameButUnitRegisters s t ↔ SameBut unitRegisters s t := by
  constructor
  · intro h
    rw [h]
    constructor <;> simp [unitRegisters]
  · intro h
    have heq := h.eq_overwrite
    rwa [h.nonce (by decide), h.macKey (by decide), h.encKey (by decide), h.ckey (by decide),
      h.mulH (by decide)] at heq

theorem sameButSecrets_iff : SameButSecrets s t ↔ SameBut secretRegisters s t := by
  refine ⟨fun h => ?_, SameBut.eq_overwrite⟩
  rw [h]
  constructor <;> simp [secretRegisters]

theorem sameBut_setDerivedKeys (s : State) (mac : Option Block) (enc : Option Key) :
    SameBut derivedKeyRegisters s { s with macKey := mac, encKey := enc } := by
  constructor <;> simp [derivedKeyRegisters]

theorem SameBut.eq_setDerivedKeys (h : SameBut derivedKeyRegisters s t) :
    t = { s with macKey := t.macKey, encKey := t.encKey } := by
  have heq := h.eq_overwrite
  rwa [h.nonce (by decide), h.ckey (by decide), h.mulH (by decide), h.acc (by decide),
    h.ctr (by decide)] at heq

/-! ### The state updates keep the agreement -/

theorem SameBut.respond (h : SameBut hidden s t) (st : Status) (val : BitVec 56) (payload : List Byte) :
    SameBut hidden (respond st val payload s) (respond st val payload t) :=
  { h with output := congrArg (· ++ response st val payload) h.output }

theorem SameBut.respondOk (h : SameBut hidden s t) (val : Nat) (payload : List Byte) :
    SameBut hidden (respondOk val payload s) (respondOk val payload t) :=
  h.respond _ _ _

theorem SameBut.raise (h : SameBut hidden s t) (st : Status) : SameBut hidden (raise st s) (raise st t) :=
  h.respond _ _ _

theorem SameBut.dropPayload (h : SameBut hidden s t) (n : Nat) :
    SameBut hidden { s with payIn := s.payIn.drop n } { t with payIn := t.payIn.drop n } :=
  { h with payIn := congrArg (List.drop n) h.payIn }

theorem SameBut.setAcc (h : SameBut hidden s t) (acc : Block) :
    SameBut hidden { s with acc := acc } { t with acc := acc } :=
  { h with acc := fun _ => rfl }

theorem SameBut.setCtr (h : SameBut hidden s t) (ctr : Option Block) :
    SameBut hidden { s with ctr := ctr } { t with ctr := ctr } :=
  { h with ctr := fun _ => rfl }

theorem SameBut.setCkey (h : SameBut hidden s t) (ckey : Option Key) :
    SameBut hidden { s with ckey := ckey } { t with ckey := ckey } :=
  { h with ckey := fun _ => rfl }

theorem SameBut.setMulH (h : SameBut hidden s t) (mulH : Option Block) :
    SameBut hidden { s with mulH := mulH } { t with mulH := mulH } :=
  { h with mulH := fun _ => rfl }

theorem SameBut.setSst (h : SameBut hidden s t) (sst : SessionState) :
    SameBut hidden { s with sst := sst } { t with sst := sst } :=
  { h with sst := rfl }

theorem SameBut.writeAcc (h : SameBut hidden s t) (acc : Block) :
    SameBut hidden (writeAcc acc s) (writeAcc acc t) :=
  (h.setAcc acc).respondOk _ _

theorem SameBut.appendAad (h : SameBut hidden s t) (data : List Byte) :
    SameBut hidden (appendAad data s) (appendAad data t) :=
  { h with aadBuf := congrArg (· ++ data) h.aadBuf }

theorem SameBut.appendMsg (h : SameBut hidden s t) (data : List Byte) :
    SameBut hidden (appendMsg data s) (appendMsg data t) :=
  { h with msgBuf := congrArg (· ++ data) h.msgBuf }

theorem SameBut.resetBuf (h : SameBut hidden s t) : SameBut hidden (resetBuf s) (resetBuf t) :=
  { h with aadBuf := h.aad0, msgBuf := rfl }

theorem SameBut.finishSession (h : SameBut hidden s t) : SameBut hidden (finishSession s) (finishSession t) :=
  { h with sst := rfl, aadBuf := rfl, msgBuf := rfl }

/-- `FINAL` writes `acc` and `ctr` before it closes the session. -/
theorem SameBut.close (h : SameBut hidden s t) (acc : Block) (ctr : Option Block) :
    SameBut hidden (Machine.finishSession { s with acc := acc, ctr := ctr })
      (Machine.finishSession { t with acc := acc, ctr := ctr }) :=
  ((h.setAcc acc).setCtr ctr).finishSession

/-- `INIT` writes the registers it derives without reading any. -/
theorem SameBut.startSession (h : SameBut hidden s t) (c : Config) (enc : Bool) (master : Key) (nonce : Nonce)
    (a0 : List Byte) : SameBut hidden (startSession c enc master nonce a0 s) (startSession c enc master nonce a0 t) :=
  { h with
    sst := rfl, mode := rfl, aad0 := rfl, aadBuf := rfl, msgBuf := rfl, nonce := fun _ => rfl
    macKey := fun _ => rfl, encKey := fun _ => rfl, ckey := fun _ => rfl, mulH := fun _ => rfl }

/-! ## What a command reads -/

/-- The hidden registers an executed command reads: `FINAL` those of rule R190, the unit commands those of their
unit (rules R147, R155, R175). No other command reads one, and none reads `macKey` or `encKey`. -/
def registersRead : Instr → List HiddenRegister
  | .final _ => [.nonce, .ckey, .mulH]
  | .pvBlk | .pvSeq _ | .pvLen => [.mulH, .acc]
  | .pvOut => [.acc]
  | .ksRun _ => [.ckey, .ctr]
  | .ksCtr => [.ctr]
  | .init _ _ _ _ | .aad _ | .msg _ | .osize _ | .reset | .pvSeed | .pvClr | .ksKey _ | .ksLoad | .tcCmp => []

variable {c : Config}

/-! ### Session commands -/

theorem SameBut.initBody (h : SameBut hidden s t) (enc : Bool) (klen nlen alen : Nat) (p : List Byte) :
    SameBut hidden (initBody c enc klen nlen alen p s) (initBody c enc klen nlen alen p t) := by
  unfold Machine.initBody
  split
  · split
    · exact (h.startSession _ _ _ _ _).respondOk _ _
    · exact h.raise _
  · exact h.raise _

theorem SameBut.aadBody (h : SameBut hidden s t) (data : List Byte) :
    SameBut hidden (aadBody c data s) (aadBody c data t) := by
  unfold Machine.aadBody
  rw [h.sst, h.aadBuf]
  split
  · split
    · exact (h.appendAad _).respondOk _ _
    · exact h.raise _
  · exact h.raise _

theorem SameBut.msgBody (h : SameBut hidden s t) (data : List Byte) :
    SameBut hidden (msgBody c data s) (msgBody c data t) := by
  unfold Machine.msgBody
  rw [h.sst, h.msgBuf, h.mode]
  split
  · split
    · exact (h.appendMsg _).respondOk _ _
    · exact h.raise _
  · exact h.raise _

theorem SameBut.osizeBody (h : SameBut hidden s t) (pendingLen : Nat) :
    SameBut hidden (osizeBody pendingLen s) (osizeBody pendingLen t) := by
  unfold Machine.osizeBody
  rw [h.sst, h.msgBuf, h.mode]
  split
  · exact h.raise _
  · split
    · exact h.respondOk _ _
    · exact h.raise _

theorem SameBut.resetBody (h : SameBut hidden s t) : SameBut hidden (resetBody s) (resetBody t) := by
  unfold Machine.resetBody
  rw [h.sst]
  split
  · exact h.respondOk _ _
  · exact (h.resetBuf.setSst _).respondOk _ _

/-! ### `FINAL` -/

/-- Encrypting, `FINAL` writes `acc` and `ctr` before anything reads them (rules R194, R261). -/
theorem SameBut.finalEncrypt (h : SameBut hidden s t) (k : Key) (seed : Block) (nonce : Nonce) :
    SameBut hidden (finalEncrypt c k seed nonce s) (finalEncrypt c k seed nonce t) := by
  simp only [Machine.finalEncrypt, h.aadBuf, h.msgBuf]
  exact (h.close _ _).respondOk _ _

/-- Decrypting, the comparison and the candidate depend on the buffers and the arguments only (rules R196, R261). -/
theorem SameBut.finalDecrypt (h : SameBut hidden s t) (k : Key) (seed : Block) (nonce : Nonce) :
    SameBut hidden (finalDecrypt c k seed nonce s) (finalDecrypt c k seed nonce t) := by
  simp only [Machine.finalDecrypt, h.aadBuf, h.msgBuf]
  split
  · exact (h.close _ _).respondOk _ _
  · exact (h.close _ _).raise _

theorem SameBut.finalBody (h : SameBut hidden s t) (ocap : Nat)
    (hread : ∀ r ∈ [.nonce, .ckey, .mulH], r ∉ hidden) :
    SameBut hidden (finalBody c ocap s) (finalBody c ocap t) := by
  unfold Machine.finalBody finalReady
  rw [h.sst, h.mode, h.msgBuf, h.nonce (hread _ (by simp)), h.ckey (hread _ (by simp)),
    h.mulH (hread _ (by simp))]
  split
  · split
    · exact h.raise _
    · split
      · exact h.finishSession.raise _
      · split
        · split
          · exact h.finalEncrypt _ _ _
          · exact h.finalDecrypt _ _ _
        · exact h.raise _
  · exact h.raise _

/-! ### Unit commands -/

/-- In a session the lock reads `sst` only (rule R79). -/
theorem SameBut.unitCommand {body : State → State} (h : SameBut hidden s t)
    (hbody : s.sst = .uninit → SameBut hidden (body s) (body t)) :
    SameBut hidden (unitCommand body s) (unitCommand body t) := by
  by_cases huninit : s.sst = .uninit
  · rw [unitCommand_of_uninit huninit, unitCommand_of_uninit (h.sst.trans huninit)]
    exact hbody huninit
  · rw [unitCommand_of_session huninit, unitCommand_of_session (h.sst.symm ▸ huninit)]
    exact h.raise _

/-- The three folding commands read `mulH` and `acc` (rule R147). -/
theorem SameBut.whenSeeded_writeAcc (h : SameBut hidden s t) (newAcc : Block → Block → Block)
    (hread : ∀ r ∈ [.mulH, .acc], r ∉ hidden) :
    SameBut hidden (whenSeeded (fun seed s => Machine.writeAcc (newAcc seed s.acc) s) s)
      (whenSeeded (fun seed s => Machine.writeAcc (newAcc seed s.acc) s) t) := by
  have hmulH : t.mulH = s.mulH := h.mulH (hread _ (by simp))
  cases hseed : s.mulH with
  | none =>
    rw [whenSeeded_none hseed, whenSeeded_none (hmulH.trans hseed)]
    exact h.raise _
  | some seed =>
    rw [whenSeeded_some hseed, whenSeeded_some (hmulH.trans hseed), h.acc (hread _ (by simp))]
    exact h.writeAcc _

theorem SameBut.pvBlkBody (h : SameBut hidden s t) (p : List Byte)
    (hread : ∀ r ∈ [.mulH, .acc], r ∉ hidden) :
    SameBut hidden (pvBlkBody c p s) (pvBlkBody c p t) :=
  h.whenSeeded_writeAcc (fun seed acc => fold c seed acc (blockOperand p)) hread

theorem SameBut.pvSeqBody (h : SameBut hidden s t) (p : List Byte)
    (hread : ∀ r ∈ [.mulH, .acc], r ∉ hidden) :
    SameBut hidden (pvSeqBody c p s) (pvSeqBody c p t) :=
  h.whenSeeded_writeAcc (fun seed acc => absorb c seed acc p) hread

theorem SameBut.pvLenBody (h : SameBut hidden s t) (p : List Byte)
    (hread : ∀ r ∈ [.mulH, .acc], r ∉ hidden) :
    SameBut hidden (pvLenBody c p s) (pvLenBody c p t) :=
  h.whenSeeded_writeAcc (fun seed acc => fold c seed acc (lenBlock (aadCountOperand p) (msgCountOperand p))) hread

theorem SameBut.pvOutBody (h : SameBut hidden s t) (hread : ∀ r ∈ [.acc], r ∉ hidden) :
    SameBut hidden (pvOutBody s) (pvOutBody t) := by
  unfold Machine.pvOutBody
  rw [h.acc (hread _ (by simp))]
  exact h.respondOk _ _

theorem SameBut.ksKeyBody (h : SameBut hidden s t) (p : List Byte) :
    SameBut hidden (ksKeyBody p s) (ksKeyBody p t) := by
  unfold Machine.ksKeyBody
  split
  · exact (h.setCkey _).respondOk _ _
  · exact h.raise _

/-- `KS.RUN` once `ckey` and `ctr` hold values (rule R178). -/
theorem ksRunBody_of_some {p : List Byte} {k : Key} {ctr : Block} (hk : s.ckey = some k) (hc : s.ctr = some ctr) :
    ksRunBody c p s =
      Machine.respondOk (ctrXor c k ctr p).1.length (ctrXor c k ctr p).1
        { s with ctr := some (ctrXor c k ctr p).2 } := by
  simp only [ksRunBody, hk, hc]

/-- `KS.RUN` while one of `ckey` and `ctr` holds no value (rule R175). -/
theorem ksRunBody_of_none {p : List Byte} (hnone : s.ckey = none ∨ s.ctr = none) :
    ksRunBody c p s = Machine.raise .stateError s := by
  unfold ksRunBody
  split
  · simp_all
  · rfl

theorem SameBut.ksRunBody (h : SameBut hidden s t) (p : List Byte)
    (hread : ∀ r ∈ [.ckey, .ctr], r ∉ hidden) :
    SameBut hidden (ksRunBody c p s) (ksRunBody c p t) := by
  have hk := h.ckey (hread _ (by simp))
  have hc := h.ctr (hread _ (by simp))
  by_cases hnone : s.ckey = none ∨ s.ctr = none
  · rw [ksRunBody_of_none hnone, ksRunBody_of_none (hk ▸ hc ▸ hnone)]
    exact h.raise _
  · obtain ⟨⟨k, hks⟩, ⟨ctr, hcs⟩⟩ : (∃ k, s.ckey = some k) ∧ ∃ ctr, s.ctr = some ctr := by
      simpa [Option.ne_none_iff_exists'] using hnone
    rw [ksRunBody_of_some hks hcs, ksRunBody_of_some (hk.trans hks) (hc.trans hcs)]
    exact (h.setCtr _).respondOk _ _

theorem SameBut.ksCtrBody (h : SameBut hidden s t) (hread : ∀ r ∈ [.ctr], r ∉ hidden) :
    SameBut hidden (ksCtrBody s) (ksCtrBody t) := by
  unfold Machine.ksCtrBody
  rw [h.ctr (hread _ (by simp))]
  split
  · exact h.respondOk _ _
  · exact h.raise _

end

/-! ### Every command -/

/-- A command treats alike two states that agree on the registers it reads; in a session a unit command reads none. -/
theorem SameBut.effect {hidden : List HiddenRegister} {s t : State} (h : SameBut hidden s t) (i : Instr)
    (p : List Byte)
    (hread : (isUnit i = true → s.sst = .uninit) → ∀ r ∈ registersRead i, r ∉ hidden) :
    SameBut hidden (effect i p s) (effect i p t) := by
  cases i with
  | init enc klen nlen alen => exact h.initBody enc klen nlen alen p
  | aad len => exact h.aadBody p
  | msg len => exact h.msgBody p
  | osize pendingLen => exact h.osizeBody pendingLen
  | final ocap => exact h.finalBody ocap (hread nofun)
  | reset => exact h.resetBody
  | pvSeed => exact h.unitCommand fun _ => (h.setMulH _).respondOk _ _
  | pvClr => exact h.unitCommand fun _ => h.writeAcc 0
  | pvBlk => exact h.unitCommand fun huninit => h.pvBlkBody p (hread fun _ => huninit)
  | pvSeq len => exact h.unitCommand fun huninit => h.pvSeqBody p (hread fun _ => huninit)
  | pvLen => exact h.unitCommand fun huninit => h.pvLenBody p (hread fun _ => huninit)
  | pvOut => exact h.unitCommand fun huninit => h.pvOutBody (hread fun _ => huninit)
  | ksKey klen => exact h.unitCommand fun _ => h.ksKeyBody p
  | ksLoad => exact h.unitCommand fun _ => (h.setCtr _).respondOk _ _
  | ksRun len => exact h.unitCommand fun huninit => h.ksRunBody p (hread fun _ => huninit)
  | ksCtr => exact h.unitCommand fun huninit => h.ksCtrBody (hread fun _ => huninit)
  | tcCmp => exact h.unitCommand fun _ => h.respondOk _ _

/-- What completes on one of two such states completes on the other, and leaves such states. -/
theorem SameBut.exec {hidden : List HiddenRegister} {s t s' : State} (h : SameBut hidden s t) {i : Instr}
    (hread : (isUnit i = true → s.sst = .uninit) → ∀ r ∈ registersRead i, r ∉ hidden) (hexec : exec i s = .next s') :
    ∃ t', Machine.exec i t = .next t' ∧ SameBut hidden s' t' := by
  obtain ⟨hlen, rfl⟩ := exec_eq_next.mp hexec
  have htake : t.payIn.take (payloadLength i) = s.payIn.take (payloadLength i) := congrArg _ h.payIn
  refine ⟨_, exec_eq_next.mpr ⟨h.payIn ▸ hlen, rfl⟩, ?_⟩
  rw [htake]
  exact (h.dropPayload _).effect i _ hread

/-! ## The statements -/

/-- Of the commands the lock lets through in a session, `FINAL` reads registers, and no other does (rules R40, R79). -/
theorem registersRead_of_session {i : Instr} {sst : SessionState} (hsession : sst ≠ .uninit)
    (hlock : isUnit i = true → sst = .uninit) :
    registersRead i = if isFinal i then [.nonce, .ckey, .mulH] else [] := by
  cases i with
  | init | aad | msg | osize | final | reset => rfl
  | pvSeed | pvClr | pvBlk | pvSeq | pvLen | pvOut | ksKey | ksLoad | ksRun | ksCtr | tcCmp =>
    exact absurd (hlock rfl) hsession

/-- In a session no command reads `acc` or `ctr` (rule R261). -/
theorem notMem_unitRegisters_of_session {i : Instr} {sst : SessionState} (hsession : sst ≠ .uninit)
    (hlock : isUnit i = true → sst = .uninit) : ∀ r ∈ registersRead i, r ∉ unitRegisters := by
  rw [registersRead_of_session hsession hlock]
  split <;> decide

/-- No command reads `macKey` or `encKey` (rules R29, R30). -/
theorem notMem_derivedKeyRegisters (i : Instr) : ∀ r ∈ registersRead i, r ∉ derivedKeyRegisters := by
  cases i with
  | init | aad | msg | osize | reset | pvSeed | pvClr | ksKey | ksLoad | tcCmp => exact nofun
  | final | pvBlk | pvSeq | pvLen | pvOut | ksRun | ksCtr => simp [registersRead, derivedKeyRegisters]

/-- Settles O57: in a session no command reads `acc` or `ctr`, and no command leads back to `Uninit`. -/
theorem unitRegistersUnobservableInSession : Obligations.UnitRegistersUnobservableInSession := by
  intro i s t s' hsame hsession hexec
  obtain ⟨t', hexec', hsame'⟩ :=
    (sameButUnitRegisters_iff.mp hsame).exec (notMem_unitRegisters_of_session hsession) hexec
  exact ⟨t', hexec', sameButUnitRegisters_iff.mpr hsame', hsame'.output, exec_sst_ne_uninit hexec hsession⟩

/-- Settles O58: in a session no command but `FINAL` reads a hidden register. -/
theorem secretsUnobservableInSession : Obligations.SecretsUnobservableInSession := by
  intro i s t s' hsame hsession hfinal hexec
  have hread (hlock : isUnit i = true → s.sst = .uninit) : ∀ r ∈ registersRead i, r ∉ secretRegisters := by
    simp [registersRead_of_session hsession hlock, hfinal]
  obtain ⟨t', hexec', hsame'⟩ := (sameButSecrets_iff.mp hsame).exec hread hexec
  exact ⟨t', hexec', sameButSecrets_iff.mpr hsame', hsame'.output⟩

/-- Settles O59: no command reads `macKey` or `encKey`, in a session or outside. -/
theorem derivedKeyRegistersNeverAnswered : Obligations.DerivedKeyRegistersNeverAnswered := by
  intro i s s' mac enc hexec
  obtain ⟨t', hexec', hsame'⟩ :=
    (sameBut_setDerivedKeys s mac enc).exec (fun _ => notMem_derivedKeyRegisters i) hexec
  exact ⟨t', hexec', hsame'.eq_setDerivedKeys⟩

end Sys2Proof.Machine

/-! PROOFS. A decrypting `FINAL` releases nothing unverified (`44_tag_finalize.md` rules R190, R193, R196; rule R36). -/

namespace Sys2Proof.Machine

/-- The payload of a response can be read off the output it is appended to (rule R72). -/
theorem payload_eq_of_response {out : List PortOut} {st : Status} {val : BitVec 56} {rw : Word64}
    {payload payload' : List Byte}
    (h : out ++ response st val payload = out ++ .word rw :: payload'.map .byte) : payload = payload' := by
  have htail : payload.map PortOut.byte = payload'.map PortOut.byte :=
    (List.cons.inj (List.append_cancel_left h)).2
  exact List.map_injective_iff.mpr (fun _ _ => PortOut.byte.inj) htail

/-- `FINAL` takes no payload and always completes (rules R73, R193). -/
theorem exec_final (ocap : Nat) (s : State) : exec (.final ocap) s = .next (finalBody Config.attached ocap s) :=
  command_zero (fun _ => finalBody Config.attached ocap) s

/-- The 16 bytes of the supplied tag stand at the end of the message buffer (rule R196). -/
theorem bytesOf_suppliedTag {s : State} (hlen : 16 ≤ s.msgBuf.length) :
    bytesOf 16 (suppliedTag s) = s.msgBuf.drop (s.msgBuf.length - 16) :=
  bytesOf_ofBytes_block _ (by simp; omega)

/-- The tag of `aad` and `msg`, with `POLYVAL` written out as one run of folds (rules R145, R153, R190). -/
theorem tagGen_eq_cipher (c : Config) (k : Key) (h : Block) (nonce : Nonce) (aad msg : List Byte) :
    tagGen c k h nonce aad msg =
      c.cipher k (tagPreimage (rev ((blocks aad ++ blocks msg ++
        [ofBytes 128 (leBytes 8 (8 * aad.length) ++ leBytes 8 (8 * msg.length))]).foldl
          (fun a b => c.gfmul (a ^^^ rev b) h) 0)) nonce) := by
  rw [tagGen, polyval, polyvalAcc_eq_foldl]
  rfl

/-- What a decrypting `FINAL` answers in `Ready`: an error, or the candidate it has verified (rules R193, R196). -/
inductive DecryptAnswer (c : Config) (s t : State) : Prop
  | error (st : Status) (u : State) (hout : u.output = s.output) (ht : t = raise st u)
  | verified (nonce : Nonce) (k : Key) (h : Block) (hnonce : s.nonce = some nonce) (hckey : s.ckey = some k)
      (hmulH : s.mulH = some h) (hlen : 16 ≤ s.msgBuf.length)
      (htag : tagGen c k h nonce s.aadBuf (candidate c k s).1 = suppliedTag s)
      (ht : t = respondOk (candidate c k s).1.length (candidate c k s).1 (decryptDone c k h s))

theorem finalDecrypt_answers {c : Config} {s : State} {nonce : Nonce} {k : Key} {h : Block}
    (hnonce : s.nonce = some nonce) (hckey : s.ckey = some k) (hmulH : s.mulH = some h)
    (hlen : 16 ≤ s.msgBuf.length) : DecryptAnswer c s (finalDecrypt c k h nonce s) := by
  by_cases htag : tagGen c k h nonce s.aadBuf (candidate c k s).1 = suppliedTag s
  · exact .verified nonce k h hnonce hckey hmulH hlen htag (finalDecrypt_of_tag_eq htag)
  · exact .error _ (decryptDone c k h s) rfl (finalDecrypt_of_tag_ne htag)

/-- A decrypt input that passes the checks of lengths holds a whole tag (rules R193, R198). -/
theorem tag_fits_of_no_capacityError {ocap len : Nat} (h : ¬ finalCapacityError .decrypt ocap len = true) :
    16 ≤ len := by
  simp only [finalCapacityError, Bool.or_eq_true, decide_eq_true_eq, not_or] at h
  omega

theorem finalReady_answers {c : Config} {s : State} (ocap : Nat) (hmode : s.mode = some .decrypt) :
    DecryptAnswer c s (finalReady c ocap s) := by
  simp only [finalReady, hmode]
  split
  · exact .error _ (finishSession s) rfl rfl
  next hfits =>
    split
    next hnonce hckey hmulH => exact finalDecrypt_answers hnonce hckey hmulH (tag_fits_of_no_capacityError hfits)
    · exact .error _ s rfl rfl

/-- Settles O29: an error carries no payload, and the candidate is answered only where its tag is the supplied one. -/
theorem noPlaintextWithoutVerifiedTag : Obligations.NoPlaintextWithoutVerifiedTag := by
  intro s t ocap rw payload hready hmode hexec hout hne
  have ht : t = finalReady Config.attached ocap s := by
    rw [exec_final, finalBody, if_pos hready] at hexec
    exact (Host.Outcome.next.inj hexec).symm
  cases ht ▸ finalReady_answers (c := Config.attached) ocap hmode with
  | error st u hkept ht =>
    rw [ht, raise_output, hkept] at hout
    exact absurd (payload_eq_of_response hout).symm hne
  | verified nonce k h hnonce hckey hmulH hlen htag ht =>
    rw [ht, respondOk_output] at hout
    obtain rfl := payload_eq_of_response hout
    refine ⟨nonce, k, h, _, hnonce, hckey, hmulH, rfl, ?_⟩
    rw [← tagGen_eq_cipher, htag, bytesOf_suppliedTag hlen]

end Sys2Proof.Machine

/-! PROOFS. The execution of one command at a time and the two buffers (`20_memory.md` rules R53, R57, R60; R73, R104,
R105). What a decoding word makes of a step, and what an append with room answers, are said once. -/

namespace Sys2Proof.Machine

/-! ## One command, run to completion -/

/-- A presented word that decodes is run on the state that has taken it, whatever the fields of the command (rules
R57, R60, R70). -/
theorem step_of_decode {s : State} {w : Word64} {rest : List HostEvent} {i : Instr}
    (hin : s.hostIn = .command w :: rest) (hdecode : decode w = .ok i) :
    step s = exec i { s with hostIn := rest } := by
  simp only [step, nextEvent_of_cons hin, hdecode]

/-- Settles O5: well-formedness is not needed, as decoding alone decides what is run. -/
theorem stepRunsDecodedCommand : Obligations.StepRunsDecodedCommand :=
  fun _ _ _ _ hin hdecode _ => step_of_decode hin hdecode

/-- Settles O15: every meaning is an effect in the frame `command`, which stops on a short payload and nowhere else. -/
theorem commandStopsExactlyWhenStarved : Obligations.CommandStopsExactlyWhenStarved := by
  intro i s
  rw [exec_eq_command]
  exact ⟨command_of_lt _, fun henough => ⟨_, command_of_le _ henough⟩⟩

/-! ## Appending in pieces -/

/-- `MSG_MAX` bytes fit the message buffer in either mode (rules R8, R62). -/
theorem msgMax_le_msgBufLimit (c : Config) (mode : Option Mode) : c.msgMax ≤ msgBufLimit c mode := by
  unfold msgBufLimit
  split <;> omega

section
variable {s : State} {d rest : List Byte}

/-- The effect of `AAD` in `Ready` with room (rule R104). -/
theorem aadBody_of_fits {c : Config} (hready : s.sst = .ready) (hfit : s.aadBuf.length + d.length ≤ c.aadMax) :
    aadBody c d s = respondOk 0 [] (appendAad d s) := by
  rw [aadBody, if_pos hready, if_pos hfit]

/-- The effect of `MSG` in `Ready` with room (rule R105). -/
theorem msgBody_of_fits {c : Config} (hready : s.sst = .ready)
    (hfit : s.msgBuf.length + d.length ≤ msgBufLimit c s.mode) :
    msgBody c d s = respondOk 0 [] (appendMsg d s) := by
  rw [msgBody, if_pos hready, if_pos hfit]

/-- An `AAD` with its payload on the port and room for it appends it and answers `OK` (rule R104). -/
theorem exec_aad_of_fits (hready : s.sst = .ready) (hp : s.payIn = d ++ rest)
    (hfit : s.aadBuf.length + d.length ≤ Config.attached.aadMax) :
    exec (.aad d.length) s = .next (respondOk 0 [] (appendAad d { s with payIn := rest })) := by
  calc exec (.aad d.length) s
    _ = .next (aadBody Config.attached d { s with payIn := rest }) := command_of_append _ hp rfl
    _ = .next (respondOk 0 [] (appendAad d { s with payIn := rest })) :=
      congrArg _ (aadBody_of_fits hready hfit)

/-- A `MSG` with its payload on the port and room for it appends it and answers `OK` (rule R105). -/
theorem exec_msg_of_fits (hready : s.sst = .ready) (hp : s.payIn = d ++ rest)
    (hfit : s.msgBuf.length + d.length ≤ msgBufLimit Config.attached s.mode) :
    exec (.msg d.length) s = .next (respondOk 0 [] (appendMsg d { s with payIn := rest })) := by
  calc exec (.msg d.length) s
    _ = .next (msgBody Config.attached d { s with payIn := rest }) := command_of_append _ hp rfl
    _ = .next (respondOk 0 [] (appendMsg d { s with payIn := rest })) :=
      congrArg _ (msgBody_of_fits hready hfit)

end

section
variable {s : State} {d₁ d₂ rest : List Byte}

/-- The associated data is one byte stream, however it is cut into two `AAD` commands (rule R53). -/
theorem exec_aad_split (hready : s.sst = .ready) (hp : s.payIn = d₁ ++ d₂ ++ rest)
    (hfit : s.aadBuf.length + d₁.length + d₂.length ≤ Config.attached.aadMax) :
    ∃ t u : State, exec (.aad d₁.length) s = .next t ∧ exec (.aad d₂.length) t = .next u ∧
      exec (.aad (d₁ ++ d₂).length) s = .next { u with output := s.output ++ response .ok 0 [] } := by
  refine ⟨_, _, exec_aad_of_fits hready (hp.trans (List.append_assoc ..)) (by omega),
    exec_aad_of_fits (rest := rest) hready rfl ?second, ?whole⟩
  case second => simpa [appendAad] using hfit
  case whole =>
    rw [exec_aad_of_fits hready hp (by simpa [← Nat.add_assoc] using hfit)]
    simp [respondOk, respond, appendAad]

/-- The message is one byte stream, however it is cut into two `MSG` commands (rule R53). -/
theorem exec_msg_split (hready : s.sst = .ready) (hp : s.payIn = d₁ ++ d₂ ++ rest)
    (hfit : s.msgBuf.length + d₁.length + d₂.length ≤ msgBufLimit Config.attached s.mode) :
    ∃ t u : State, exec (.msg d₁.length) s = .next t ∧ exec (.msg d₂.length) t = .next u ∧
      exec (.msg (d₁ ++ d₂).length) s = .next { u with output := s.output ++ response .ok 0 [] } := by
  refine ⟨_, _, exec_msg_of_fits hready (hp.trans (List.append_assoc ..)) (by omega),
    exec_msg_of_fits (rest := rest) hready rfl ?second, ?whole⟩
  case second => simpa [appendMsg] using hfit
  case whole =>
    rw [exec_msg_of_fits hready hp (by simpa [← Nat.add_assoc] using hfit)]
    simp [respondOk, respond, appendMsg]

end

/-- Settles O31: each buffer takes the pieces as one stream; `MSG_MAX` bytes fit in either mode. -/
theorem splitBufferingInvisible : Obligations.SplitBufferingInvisible := fun _ _ _ _ hready hp =>
  ⟨exec_aad_split hready hp, fun hfit => exec_msg_split hready hp (hfit.trans (msgMax_le_msgBufLimit ..))⟩

end Sys2Proof.Machine

/-! PROOFS. The opcode map, decoding and encoding, and the response word (`30_encoding.md` rules R71 to R78, R83). A
word is first split into its two fields, a row of the map into what it asks of each; what a row builds is then said
once for the three shapes a row has. Decoding and encoding are read off `decode_eq_ok_iff`. -/

namespace Sys2Proof

open Sys2Proof.Machine

/-! ## The two fields of a word -/

/-- A word is its opcode and its argument (rule R71). -/
theorem word_eq_iff {v w : Word64} : v = w ↔ opcOf v = opcOf w ∧ argOf v = argOf w := by
  refine ⟨fun h => ⟨congrArg _ h, congrArg _ h⟩, fun ⟨hopc, harg⟩ => ?_⟩
  rw [← commandWord_opcOf_argOf v, ← commandWord_opcOf_argOf w, hopc, harg]

@[simp] theorem opcOf_and (v w : Word64) : opcOf (v &&& w) = opcOf v &&& opcOf w := BitVec.extractLsb'_and

@[simp] theorem argOf_and (v w : Word64) : argOf (v &&& w) = argOf v &&& argOf w := BitVec.extractLsb'_and

/-! ## The rows of the opcode map -/

/-- Every row compares the whole opcode and asks for zeros only in the argument (rule R76). -/
theorem opcodeMap_fields : ∀ r ∈ opcodeMap, opcOf r.mask = BitVec.allOnes 8 ∧ argOf r.pattern = 0 := by decide

/-- The opcodes of the rows, in the map's order (rule R76). -/
theorem opcodeMap_opcodes : opcodeMap.map (fun r => opcOf r.pattern) = listedOpcodes := by decide

theorem listedOpcodes_nodup : listedOpcodes.Nodup := by decide

/-- A row is selected by its opcode with zeros in the argument bits it reserves (rules R76, R78). -/
theorem selects_iff {r : OpRow} (hr : r ∈ opcodeMap) {w : Word64} :
    r.selects w = true ↔ opcOf w = opcOf r.pattern ∧ argOf w &&& argOf r.mask = 0 := by
  obtain ⟨hmask, hpattern⟩ := opcodeMap_fields r hr
  rw [OpRow.selects, beq_iff_eq, word_eq_iff, opcOf_and, argOf_and, hmask, hpattern, BitVec.and_allOnes]

theorem opcOf_pattern_mem {r : OpRow} (hr : r ∈ opcodeMap) : opcOf r.pattern ∈ listedOpcodes :=
  opcodeMap_opcodes ▸ List.mem_map_of_mem hr

/-- A word selects at most one row, as no opcode is listed twice (rule R76). -/
theorem row_eq_of_selects {r r' : OpRow} (hr : r ∈ opcodeMap) (hr' : r' ∈ opcodeMap) {w : Word64}
    (h : r.selects w = true) (h' : r'.selects w = true) : r = r' := by
  obtain ⟨hopc, -⟩ := (selects_iff hr).mp h
  obtain ⟨hopc', -⟩ := (selects_iff hr').mp h'
  exact List.inj_on_of_nodup_map (opcodeMap_opcodes ▸ listedOpcodes_nodup) hr hr' (hopc.symm.trans hopc')

/-- Settles O3: two selected rows are the same row, and no row stands in the map twice. -/
theorem opcodeRowsDisjoint : Obligations.OpcodeRowsDisjoint := by
  intro w m n hm hn
  have hnodup : opcodeMap.Nodup := List.Nodup.of_map _ (opcodeMap_opcodes ▸ listedOpcodes_nodup)
  exact hnodup.injective_get (row_eq_of_selects (List.get_mem _ m) (List.get_mem _ n) hm hn)

/-- A word decodes to what the row it selects builds of its argument (rule R76). -/
theorem decode_eq_ok_iff_row {w : Word64} {i : Instr} :
    decode w = .ok i ↔ ∃ r ∈ opcodeMap, r.selects w = true ∧ r.build (argOf w) = i := by
  unfold decode
  cases hfind : opcodeMap.find? (fun r => r.selects w) with
  | none =>
    have hnone : ∀ r ∈ opcodeMap, ¬ r.selects w = true := List.find?_eq_none.mp hfind
    constructor
    · dsimp only
      split <;> exact nofun
    · rintro ⟨r, hr, hsel, -⟩
      exact absurd hsel (hnone r hr)
  | some r =>
    have hr : r ∈ opcodeMap := List.mem_of_find?_eq_some hfind
    have hsel : r.selects w = true := List.find?_some (p := fun r : OpRow => r.selects w) hfind
    constructor
    · exact fun h => ⟨r, hr, hsel, Except.ok.inj h⟩
    · rintro ⟨r', hr', hsel', rfl⟩
      rw [row_eq_of_selects hr' hr hsel' hsel]

/-! ## The argument of `INIT` -/

/-- The five parts of a joined value, each found where it was put: the layout of the argument of `INIT` (rule R74). -/
theorem parts_of_append (alen : BitVec 32) (nlen klen : BitVec 8) (reserved : BitVec 7) (enc : BitVec 1) :
    (alen ++ nlen ++ klen ++ reserved ++ enc).extractLsb' 0 1 = enc ∧
      (alen ++ nlen ++ klen ++ reserved ++ enc).extractLsb' 1 7 = reserved ∧
      (alen ++ nlen ++ klen ++ reserved ++ enc).extractLsb' 8 8 = klen ∧
      (alen ++ nlen ++ klen ++ reserved ++ enc).extractLsb' 16 8 = nlen ∧
      (alen ++ nlen ++ klen ++ reserved ++ enc).extractLsb' 24 32 = alen := by
  refine ⟨BitVec.extractLsb'_append_eq_right, ?reserved, ?klen, ?nlen, ?alen⟩
  case reserved => rw [BitVec.extractLsb'_append_eq_of_le (by decide), BitVec.extractLsb'_append_eq_right]
  case klen =>
    iterate 2 rw [BitVec.extractLsb'_append_eq_of_le (by decide)]
    exact BitVec.extractLsb'_append_eq_right
  case nlen =>
    iterate 3 rw [BitVec.extractLsb'_append_eq_of_le (by decide)]
    exact BitVec.extractLsb'_append_eq_right
  case alen =>
    iterate 4 rw [BitVec.extractLsb'_append_eq_of_le (by decide)]
    exact BitVec.extractLsb'_eq_self

/-- The bit `ENC` as a field of one bit (rule R74). -/
theorem ofBool_getLsbD_zero {w : Nat} (x : BitVec w) : BitVec.ofBool (x.getLsbD 0) = x.extractLsb' 0 1 := by
  apply BitVec.eq_of_getLsbD_eq
  intro i hi
  obtain rfl : i = 0 := by omega
  simp

/-- The argument `INIT` is encoded with is read back field by field, where the fields fit (rule R74). -/
theorem initOfArg_initArg {enc : Bool} {klen nlen alen : Nat} (hk : klen < 2 ^ 8) (hn : nlen < 2 ^ 8)
    (ha : alen < 2 ^ 32) : initOfArg (initArg enc klen nlen alen) = .init enc klen nlen alen := by
  obtain ⟨henc, -, hklen, hnlen, halen⟩ :=
    parts_of_append (BitVec.ofNat 32 alen) (BitVec.ofNat 8 nlen) (BitVec.ofNat 8 klen) 0#7 (BitVec.ofBool enc)
  have hbit : (initArg enc klen nlen alen).getLsbD 0 = enc :=
    BitVec.ofBool_eq_iff_eq.mp ((ofBool_getLsbD_zero _).trans henc)
  have hk' : ((initArg enc klen nlen alen).extractLsb' 8 8).toNat = klen :=
    (congrArg BitVec.toNat hklen).trans (Nat.mod_eq_of_lt hk)
  have hn' : ((initArg enc klen nlen alen).extractLsb' 16 8).toNat = nlen :=
    (congrArg BitVec.toNat hnlen).trans (Nat.mod_eq_of_lt hn)
  have ha' : ((initArg enc klen nlen alen).extractLsb' 24 32).toNat = alen :=
    (congrArg BitVec.toNat halen).trans (Nat.mod_eq_of_lt ha)
  rw [initOfArg, hbit, hk', hn', ha']

/-- The argument `INIT` is encoded with has its reserved bits zero (rule R74). -/
theorem initArg_reserved (enc : Bool) (klen nlen alen : Nat) :
    (initArg enc klen nlen alen).extractLsb' 1 7 = 0#7 :=
  have ⟨_, hreserved, _⟩ :=
    parts_of_append (BitVec.ofNat 32 alen) (BitVec.ofNat 8 nlen) (BitVec.ofNat 8 klen) 0#7 (BitVec.ofBool enc)
  hreserved

/-- The fields of an argument, joined, are the argument (rule R74). -/
theorem initArg_of_fields {arg : BitVec 56} (h : arg.extractLsb' 1 7 = 0#7) :
    initArg (arg.getLsbD 0) (arg.extractLsb' 8 8).toNat (arg.extractLsb' 16 8).toNat
      (arg.extractLsb' 24 32).toNat = arg := by
  rw [initArg, ofBool_getLsbD_zero, ← h, BitVec.ofNat_toNat, BitVec.ofNat_toNat, BitVec.ofNat_toNat,
    BitVec.setWidth_eq, BitVec.setWidth_eq, BitVec.setWidth_eq,
    BitVec.extractLsb'_append_extractLsb'_eq_extractLsb' (show 24 = 16 + 8 from rfl),
    BitVec.extractLsb'_append_extractLsb'_eq_extractLsb' (show 16 = 8 + 8 from rfl),
    BitVec.extractLsb'_append_extractLsb'_eq_extractLsb' (show 8 = 1 + 7 from rfl),
    BitVec.extractLsb'_append_extractLsb'_eq_extractLsb' (show 1 = 0 + 1 from rfl)]
  exact BitVec.extractLsb'_eq_self

/-- The mask of the `INIT` row reserves bits 7 to 1 (rules R74, R78). -/
theorem and_initMask_eq_zero_iff (arg : BitVec 56) : arg &&& 0xFE = 0 ↔ arg.extractLsb' 1 7 = 0#7 := by
  have hmask : ∀ i < 56, (0xFE : BitVec 56).getLsbD i = (decide (1 ≤ i) && decide (i < 1 + 7)) := by decide
  constructor
  · intro h
    have hones : (0xFE : BitVec 56).extractLsb' 1 7 = BitVec.allOnes 7 := by decide
    calc arg.extractLsb' 1 7
      _ = (arg &&& 0xFE).extractLsb' 1 7 := by rw [BitVec.extractLsb'_and, hones, BitVec.and_allOnes]
      _ = 0#7 := by rw [h]; rfl
  · intro h
    apply BitVec.eq_of_getLsbD_eq
    intro i hi
    rw [BitVec.getLsbD_and, hmask i hi]
    by_cases hlow : 1 ≤ i ∧ i < 1 + 7
    · have hbit : arg.getLsbD i = (arg.extractLsb' 1 7).getLsbD (i - 1) := by
        rw [BitVec.getLsbD_extractLsb', decide_eq_true (by omega), Bool.true_and, Nat.add_sub_cancel' hlow.1]
      rw [hbit, h]
      simp
    · rw [← Bool.decide_and, decide_eq_false hlow, Bool.and_false]
      simp

/-! ## What a row builds is what it is encoded from -/

/-- Every argument the row lets through is the one the command it builds is encoded with, and that command is well
formed: no bit of a word is dropped. -/
def OpRow.Encodes (r : OpRow) : Prop :=
  ∀ arg, arg &&& argOf r.mask = 0 →
    encode (r.build arg) = commandWord (opcOf r.pattern) arg ∧ (r.build arg).wellFormed = true

/-- The row of `INIT` (rule R74). -/
theorem encodes_init : OpRow.Encodes ⟨0x0100000000000000, 0xFF000000000000FE, initOfArg⟩ := by
  intro arg harg
  have hreserved : arg.extractLsb' 1 7 = 0#7 := (and_initMask_eq_zero_iff arg).mp harg
  constructor
  · exact congrArg (commandWord 0x01) (initArg_of_fields hreserved)
  · simp only [initOfArg, Instr.wellFormed, BitVec.isLt, decide_true, Bool.and_self]

/-- A row whose whole argument is one number (rule R75). -/
theorem encodes_number {pattern mask : Word64} {f : Nat → Instr}
    (hencode : ∀ n, encode (f n) = commandWord (opcOf pattern) (BitVec.ofNat 56 n))
    (hfits : ∀ n, (f n).wellFormed = decide (n < 2 ^ 56)) :
    OpRow.Encodes ⟨pattern, mask, fun arg => f arg.toNat⟩ := by
  intro arg _
  exact ⟨by rw [hencode, BitVec.ofNat_toNat, BitVec.setWidth_eq], by rw [hfits, decide_eq_true arg.isLt]⟩

/-- A row whose whole argument is reserved (rules R75, R78). -/
theorem encodes_noArgument {pattern : Word64} {i : Instr} (hencode : encode i = commandWord (opcOf pattern) 0)
    (hfits : i.wellFormed = true) : OpRow.Encodes ⟨pattern, 0xFFFFFFFFFFFFFFFF, fun _ => i⟩ := by
  intro arg harg
  have hmask : argOf 0xFFFFFFFFFFFFFFFF = BitVec.allOnes 56 := by decide
  have hzero : arg = 0 := by rwa [hmask, BitVec.and_allOnes] at harg
  exact ⟨hzero ▸ hencode, hfits⟩

/-- Every row of the map is of one of the three shapes. -/
theorem opcodeMap_encodes : ∀ r ∈ opcodeMap, r.Encodes := by
  simp only [opcodeMap, List.forall_mem_cons]
  exact ⟨encodes_init, encodes_number (fun _ => rfl) fun _ => rfl, encodes_number (fun _ => rfl) fun _ => rfl,
    encodes_number (fun _ => rfl) fun _ => rfl, encodes_number (fun _ => rfl) fun _ => rfl,
    encodes_noArgument rfl rfl, encodes_noArgument rfl rfl, encodes_noArgument rfl rfl, encodes_noArgument rfl rfl,
    encodes_number (fun _ => rfl) fun _ => rfl, encodes_noArgument rfl rfl, encodes_noArgument rfl rfl,
    encodes_number (fun _ => rfl) fun _ => rfl, encodes_noArgument rfl rfl,
    encodes_number (fun _ => rfl) fun _ => rfl, encodes_noArgument rfl rfl, encodes_noArgument rfl rfl, nofun⟩

/-! ## Every well-formed command has a row -/

/-- Some row builds the command from an argument it lets through. -/
def HasRow (i : Instr) : Prop := ∃ r ∈ opcodeMap, ∃ arg, arg &&& argOf r.mask = 0 ∧ r.build arg = i

/-- A number that fits 56 bits is the argument of its command (rule R75). -/
theorem hasRow_number {n : Nat} (hn : n < opcodeMap.length) {f : Nat → Instr} {len : Nat}
    (hmask : argOf opcodeMap[n].mask = 0) (hbuild : opcodeMap[n].build = fun arg => f arg.toNat)
    (hlen : len < 2 ^ 56) : HasRow (f len) := by
  refine ⟨opcodeMap[n], List.getElem_mem hn, BitVec.ofNat 56 len, by simp [hmask], ?_⟩
  calc opcodeMap[n].build (BitVec.ofNat 56 len)
    _ = f (BitVec.ofNat 56 len).toNat := congrFun hbuild _
    _ = f len := by rw [BitVec.toNat_ofNat, Nat.mod_eq_of_lt hlen]

/-- A command without argument is built from 0 (rule R75). -/
theorem hasRow_noArgument {n : Nat} (hn : n < opcodeMap.length) : HasRow (opcodeMap[n].build 0) :=
  ⟨opcodeMap[n], List.getElem_mem hn, 0, BitVec.zero_and, rfl⟩

theorem hasRow_init {enc : Bool} {klen nlen alen : Nat} (h : (Instr.init enc klen nlen alen).wellFormed = true) :
    HasRow (.init enc klen nlen alen) := by
  simp only [Instr.wellFormed, Bool.and_eq_true, decide_eq_true_eq] at h
  obtain ⟨⟨hk, hn⟩, ha⟩ := h
  have hmask : argOf opcodeMap[0].mask = 0xFE := by decide
  refine ⟨opcodeMap[0], List.getElem_mem (by decide), initArg enc klen nlen alen, ?_, initOfArg_initArg hk hn ha⟩
  rw [hmask]
  exact (and_initMask_eq_zero_iff _).mpr (initArg_reserved enc klen nlen alen)

theorem hasRow_of_wellFormed {i : Instr} (h : i.wellFormed = true) : HasRow i := by
  cases i with
  | init enc klen nlen alen => exact hasRow_init h
  | aad len => exact hasRow_number (n := 1) (by decide) rfl rfl (of_decide_eq_true h)
  | msg len => exact hasRow_number (n := 2) (by decide) rfl rfl (of_decide_eq_true h)
  | osize pendingLen => exact hasRow_number (n := 3) (by decide) rfl rfl (of_decide_eq_true h)
  | final ocap => exact hasRow_number (n := 4) (by decide) rfl rfl (of_decide_eq_true h)
  | reset => exact hasRow_noArgument (n := 5) (by decide)
  | pvSeed => exact hasRow_noArgument (n := 6) (by decide)
  | pvClr => exact hasRow_noArgument (n := 7) (by decide)
  | pvBlk => exact hasRow_noArgument (n := 8) (by decide)
  | pvSeq len => exact hasRow_number (n := 9) (by decide) rfl rfl (of_decide_eq_true h)
  | pvLen => exact hasRow_noArgument (n := 10) (by decide)
  | pvOut => exact hasRow_noArgument (n := 11) (by decide)
  | ksKey klen => exact hasRow_number (n := 12) (by decide) rfl rfl (of_decide_eq_true h)
  | ksLoad => exact hasRow_noArgument (n := 13) (by decide)
  | ksRun len => exact hasRow_number (n := 14) (by decide) rfl rfl (of_decide_eq_true h)
  | ksCtr => exact hasRow_noArgument (n := 15) (by decide)
  | tcCmp => exact hasRow_noArgument (n := 16) (by decide)

/-! ## Decoding and encoding -/

/-- Decoding is the inverse of encoding on the well-formed commands, and defined on their words only (rules R71, R74 to
R76). -/
theorem decode_eq_ok_iff {w : Word64} {i : Instr} : decode w = .ok i ↔ i.wellFormed = true ∧ encode i = w := by
  rw [decode_eq_ok_iff_row]
  constructor
  · rintro ⟨r, hr, hsel, rfl⟩
    obtain ⟨hopc, harg⟩ := (selects_iff hr).mp hsel
    obtain ⟨hencode, hfits⟩ := opcodeMap_encodes r hr (argOf w) harg
    exact ⟨hfits, by rw [hencode, ← hopc, commandWord_opcOf_argOf]⟩
  · rintro ⟨hfits, rfl⟩
    obtain ⟨r, hr, arg, harg, rfl⟩ := hasRow_of_wellFormed hfits
    obtain ⟨hencode, -⟩ := opcodeMap_encodes r hr arg harg
    refine ⟨r, hr, (selects_iff hr).mpr ?_, ?_⟩
    · rw [hencode, opcOf_commandWord, argOf_commandWord]
      exact ⟨rfl, harg⟩
    · rw [hencode, argOf_commandWord]

/-- Settles O1: the one direction of `decode_eq_ok_iff`. -/
theorem decodeOfEncode : Obligations.DecodeOfEncode := fun _ hfits => decode_eq_ok_iff.mpr ⟨hfits, rfl⟩

/-- Settles O2: the other direction of `decode_eq_ok_iff`. -/
theorem encodeOfDecode : Obligations.EncodeOfDecode := fun _ _ h => (decode_eq_ok_iff.mp h).symm

/-- Settles O4: the fixed words of the worked encodings, evaluated. -/
theorem workedEncodings : Obligations.WorkedEncodings := by
  refine ⟨by decide, by decide, by decide, by decide, by decide, by decide, by decide, ?finalResponse, by decide⟩
  case finalResponse => exact fun _ => rfl

/-- Settles O17: a response word is laid out as a command word is, its status in place of the opcode. -/
theorem responseWordFields : Obligations.ResponseWordFields :=
  ⟨fun st val => ⟨opcOf_commandWord st.code val, argOf_commandWord st.code val⟩, rfl, rfl, rfl, rfl, rfl, rfl⟩

/-! ## Reserved words -/

/-- The words no command has: an opcode the map does not list, a nonzero argument where the whole argument is reserved,
a reserved bit of `INIT` (rules R77, R78). -/
def Reserved (w : Word64) : Prop :=
  opcOf w ∉ listedOpcodes ∨ (opcOf w ∈ zeroArgOpcodes ∧ argOf w ≠ 0) ∨
    (opcOf w = 0x01 ∧ (argOf w).extractLsb' 1 7 ≠ 0)

/-- The argument bits a row reserves, by its opcode (rules R75, R78). -/
theorem opcodeMap_masks : ∀ r ∈ opcodeMap,
    (opcOf r.pattern ∈ zeroArgOpcodes → argOf r.mask = BitVec.allOnes 56) ∧
      (opcOf r.pattern = 0x01 → argOf r.mask = 0xFE) := by
  decide

/-- No row is selected by a reserved word. -/
theorem selects_eq_false_of_reserved {w : Word64} (hw : Reserved w) {r : OpRow} (hr : r ∈ opcodeMap) :
    ¬ r.selects w = true := by
  intro hsel
  obtain ⟨hopc, harg⟩ := (selects_iff hr).mp hsel
  obtain ⟨hzeroArg, hinit⟩ := opcodeMap_masks r hr
  rw [Reserved, hopc] at hw
  obtain hunlisted | ⟨hlisted, hne⟩ | ⟨hlisted, hne⟩ := hw
  · exact hunlisted (opcOf_pattern_mem hr)
  · rw [hzeroArg hlisted, BitVec.and_allOnes] at harg
    exact hne harg
  · rw [hinit hlisted] at harg
    exact hne ((and_initMask_eq_zero_iff _).mp harg)

/-- A reserved word is no command (rules R77, R78). -/
theorem decode_of_reserved {w : Word64} (hw : Reserved w) : ∃ e, decode w = .error e := by
  cases hdecode : decode w with
  | error e => exact ⟨e, rfl⟩
  | ok i =>
    obtain ⟨r, hr, hsel, -⟩ := decode_eq_ok_iff_row.mp hdecode
    exact absurd hsel (selects_eq_false_of_reserved hw hr)

/-- Settles O6: a word no row selects is no command, and the step answers it as `illegalWord` does. -/
theorem reservedWordsAnsweredIllegal : Obligations.ReservedWordsAnsweredIllegal := by
  intro s w rest hin hw
  obtain ⟨e, hdecode⟩ := decode_of_reserved hw
  constructor
  · rw [wordPayloadLength, hdecode]
  · simp only [step, nextEvent_of_cons hin, hdecode]
    rfl

end Sys2Proof

/-! PROOFS. How every command ends (`30_encoding.md` rules R70, R72, R73, R79; `40_session.md` rule R100; rule R250).
What a command leaves of the ports comes from the moves of the session; how it answers and in which session state it
ends is said once, by `CommandEnd`. -/

namespace Sys2Proof.Machine

/-! ## The ports -/

/-- No move takes anything from a port (rules R70, R73). -/
theorem SessionMove.ports {c : Config} {s u : State} (hmove : SessionMove c s u) :
    u.payIn = s.payIn ∧ u.hostIn = s.hostIn := by
  cases hmove with
  | stay | useUnits | start | addAad | addMsg | reopen | close => exact ⟨rfl, rfl⟩

/-- Settles O14: the frame takes the payload, and neither a move nor a response takes more. -/
theorem commandConsumesItsPayload : Obligations.CommandConsumesItsPayload := by
  intro i s t hexec
  obtain ⟨hlen, -⟩ := exec_eq_next.mp hexec
  obtain ⟨u, st, val, payload, hmove, rfl⟩ := exec_moves hexec
  obtain ⟨hpayIn, hhostIn⟩ := hmove.ports
  exact ⟨hlen, hpayIn, hhostIn⟩

/-! ## The way back to `Uninit` -/

/-- Settles O10: no command leads back to `Uninit`, and idling and a reserved word keep `sst`. -/
theorem onlyHardwareResetReturnsToUninit : Obligations.OnlyHardwareResetReturnsToUninit := by
  intro s t hstep hsession huninit
  cases step_cases hstep with
  | idle _ ht => exact absurd (ht ▸ huninit) hsession
  | reset rest hin _ => exact ⟨rest, hin⟩
  | illegal w rest _ ht =>
    have hkept : t.sst = s.sst := by rw [ht]; rfl
    exact absurd (hkept ▸ huninit) hsession
  | command w rest i _ _ hexec => exact absurd huninit (exec_sst_ne_uninit hexec hsession)

/-! ## The lock -/

/-- Settles O32: the effect of a unit command is behind the lock, which answers in the frame of the payload. -/
theorem unitCommandsLockedInSession : Obligations.UnitCommandsLockedInSession := by
  intro i s hunit hsession hlen
  obtain ⟨body, heffect⟩ := effect_of_unit i hunit
  rw [exec_eq_command, command_of_le _ hlen, heffect]
  exact congrArg _ (unitCommand_of_session hsession)

/-! ## How a command ends -/

/-- The session state after a command, as the table of rule R100 gives it. -/
def sstAfter (c : Config) (s : State) : Instr → SessionState
  | .init _ klen nlen alen => if (klen = 16 ∨ klen = 32) ∧ nlen = 12 ∧ alen ≤ c.aadMax then .ready else s.sst
  | .final _ => if s.sst = .ready then .finalized else s.sst
  | .reset => if s.sst = .uninit then .uninit else .ready
  | .aad _ | .msg _ | .osize _ | .pvSeed | .pvClr | .pvBlk | .pvSeq _ | .pvLen | .pvOut | .ksKey _ | .ksLoad
  | .ksRun _ | .ksCtr | .tcCmp => s.sst

/-- How a command can end: one response after all that was delivered before, in the session state of rule R100. -/
inductive CommandEnd (c : Config) (i : Instr) (s : State) : State → Prop
  /-- an error, which carries no payload (rule R72) -/
  | error (st : Status) (u : State) (hout : u.output = s.output) (hsst : u.sst = sstAfter c s i) :
    CommandEnd c i s (raise st u)
  /-- success, of a command that answers without a payload -/
  | done (val : Nat) (u : State) (hbare : answersWithPayload i = false) (hout : u.output = s.output)
      (hsst : u.sst = sstAfter c s i) : CommandEnd c i s (respondOk val [] u)
  /-- success, of a command that answers with bytes, whose number the field `VAL` holds -/
  | bytes (payload : List Byte) (u : State) (hbytes : answersWithPayload i = true)
      (hfit : i.wellFormed = true → payload.length < 2 ^ 56) (hout : u.output = s.output)
      (hsst : u.sst = sstAfter c s i) : CommandEnd c i s (respondOk payload.length payload u)

section
variable {c : Config} {i : Instr} {s t : State} {p : List Byte}

theorem CommandEnd.sst_eq (h : CommandEnd c i s t) : t.sst = sstAfter c s i := by
  cases h with
  | error _ _ _ hsst => exact hsst
  | done _ _ _ _ hsst => exact hsst
  | bytes _ _ _ _ _ hsst => exact hsst

/-! ### Session commands -/

/-- A key is made of 16 or 32 bytes (rules R6, R7). -/
theorem length_of_keyOperand {bs : List Byte} {k : Key} (h : keyOperand bs = some k) :
    bs.length = 16 ∨ bs.length = 32 := by
  by_contra hlen
  rw [not_or, ← ne_eq, ← ne_eq, ← keyOperand_eq_none, h] at hlen
  exact nomatch hlen

/-- The key of a whole `INIT` payload is what `KLEN` counts (rule R74). -/
theorem initKeyBytes_length {klen nlen alen : Nat} (hp : p.length = klen + nlen + alen) :
    (initKeyBytes klen p).length = klen := by
  rw [initKeyBytes, List.length_take, hp]
  omega

theorem initBody_ends {klen nlen alen : Nat} (enc : Bool) (hp : p.length = klen + nlen + alen) :
    CommandEnd c (.init enc klen nlen alen) s (initBody c enc klen nlen alen p s) := by
  have hlen : (initKeyBytes klen p).length = klen := initKeyBytes_length hp
  unfold initBody
  split
  next master hkey =>
    have hklen : klen = 16 ∨ klen = 32 := hlen ▸ length_of_keyOperand hkey
    split
    next hlens => exact .done 0 _ rfl rfl (if_pos ⟨hklen, hlens⟩).symm
    next hlens => exact .error _ s rfl (if_neg fun h => hlens h.2).symm
  next hkey =>
    rw [keyOperand_eq_none, hlen] at hkey
    exact .error _ s rfl (if_neg fun h => h.1.elim hkey.1 hkey.2).symm

theorem aadBody_ends (len : Nat) : CommandEnd c (.aad len) s (aadBody c p s) := by
  unfold aadBody
  split
  · split
    · exact .done 0 (appendAad p s) rfl rfl rfl
    · exact .error _ s rfl rfl
  · exact .error _ s rfl rfl

theorem msgBody_ends (len : Nat) : CommandEnd c (.msg len) s (msgBody c p s) := by
  unfold msgBody
  split
  · split
    · exact .done 0 (appendMsg p s) rfl rfl rfl
    · exact .error _ s rfl rfl
  · exact .error _ s rfl rfl

theorem osizeBody_ends (pendingLen : Nat) : CommandEnd c (.osize pendingLen) s (osizeBody pendingLen s) := by
  unfold osizeBody
  split
  · exact .error _ s rfl rfl
  · split
    · exact .done _ s rfl rfl rfl
    · exact .error _ s rfl rfl

theorem resetBody_ends : CommandEnd c .reset s (resetBody s) := by
  unfold resetBody
  split
  next huninit => exact .done 0 s rfl rfl (huninit.trans (if_pos huninit).symm)
  next hsession => exact .done 0 _ rfl rfl (if_neg hsession).symm

/-! ### `FINAL` -/

/-- The keystream pass answers as many bytes as it takes (rule R172). -/
theorem ctrXor_length (c : Config) (k : Key) (ctr : Block) (data : List Byte) :
    (ctrXor c k ctr data).1.length = data.length := by
  have hpieces : ∀ q ∈ piecesOf data, q.length ≤ 16 := fun _ => length_of_mem_pieces
  rw [ctrXor, ctrXorPieces_length c k _ ctr hpieces, piecesOf_flatten]

/-- The message buffer of a state with the invariants leaves room for a tag in what `VAL` can count when encrypting,
and fits it in either mode (rules R8, R62, R72). -/
theorem SessionInv.msgBuf_fits (hinv : SessionInv c s) :
    s.msgBuf.length < 2 ^ 56 ∧ (s.mode = some .encrypt → s.msgBuf.length + 16 < 2 ^ 56) := by
  obtain ⟨-, -, hmsg⟩ := memory_wf_iff.mp hinv.buffers_fit
  have hmax : c.msgMax < 2 ^ 56 - 17 + 1 := c.msgLimit.isLt
  unfold msgBufLimit at hmsg
  split at hmsg
  next => exact ⟨by omega, fun _ => by omega⟩
  next hmode => exact ⟨by omega, fun henc => absurd henc hmode⟩

/-- In a session the registers `FINAL` reads hold values (rule R39). -/
theorem SessionInv.final_registers (hinv : SessionInv c s) (hsession : s.sst ≠ .uninit) :
    ∃ mode nonce k h, s.mode = some mode ∧ s.nonce = some nonce ∧ s.ckey = some k ∧ s.mulH = some h := by
  obtain ⟨hmode, hnonce, hmac, henc⟩ := hinv.registers_hold hsession
  obtain ⟨hckey, hmulH⟩ := hinv.collaborators_keyed hsession
  obtain ⟨mode, hmode⟩ := Option.isSome_iff_exists.mp hmode
  obtain ⟨nonce, hnonce⟩ := Option.isSome_iff_exists.mp hnonce
  obtain ⟨mac, hmac⟩ := Option.isSome_iff_exists.mp hmac
  obtain ⟨k, henc⟩ := Option.isSome_iff_exists.mp henc
  exact ⟨mode, nonce, k, seedH mac, hmode, hnonce, hckey.trans henc, by rw [hmulH, hmac, Option.map_some]⟩

theorem finalEncrypt_ends {ocap : Nat} (k : Key) (h : Block) (nonce : Nonce) (hinv : SessionInv c s)
    (hready : s.sst = .ready) (hmode : s.mode = some .encrypt) :
    CommandEnd c (.final ocap) s (finalEncrypt c k h nonce s) := by
  refine .bytes _ _ rfl (fun _ => ?_) rfl (if_pos hready).symm
  rw [List.length_append, ctrXor_length, bytesOf_length]
  exact hinv.msgBuf_fits.2 hmode

theorem finalDecrypt_ends {ocap : Nat} (k : Key) (h : Block) (nonce : Nonce) (hinv : SessionInv c s)
    (hready : s.sst = .ready) : CommandEnd c (.final ocap) s (finalDecrypt c k h nonce s) := by
  by_cases htag : tagGen c k h nonce s.aadBuf (candidate c k s).1 = suppliedTag s
  · rw [finalDecrypt_of_tag_eq htag]
    refine .bytes _ _ rfl (fun _ => ?_) rfl (if_pos hready).symm
    rw [candidate, ctrXor_length]
    exact (List.length_take_le' _ _).trans_lt hinv.msgBuf_fits.1
  · rw [finalDecrypt_of_tag_ne htag]
    exact .error _ (decryptDone c k h s) rfl (if_pos hready).symm

theorem finalBody_ends (ocap : Nat) (hinv : SessionInv c s) :
    CommandEnd c (.final ocap) s (finalBody c ocap s) := by
  unfold finalBody
  split
  next hready =>
    obtain ⟨mode, nonce, k, h, hmode, hnonce, hckey, hmulH⟩ := hinv.final_registers (by simp [hready])
    simp only [finalReady, hmode, hnonce, hckey, hmulH]
    split
    · exact .error _ (finishSession s) rfl (if_pos hready).symm
    · cases mode with
      | encrypt => exact finalEncrypt_ends k h nonce hinv hready hmode
      | decrypt => exact finalDecrypt_ends k h nonce hinv hready
  next hready => exact .error _ s rfl (if_neg hready).symm

/-! ### Unit commands -/

/-- No unit command changes the session state (rule R100). -/
theorem sstAfter_of_unit (hunit : isUnit i = true) : sstAfter c s i = s.sst := by
  cases i with
  | init | aad | msg | osize | final | reset => exact absurd hunit Bool.false_ne_true
  | pvSeed | pvClr | pvBlk | pvSeq | pvLen | pvOut | ksKey | ksLoad | ksRun | ksCtr | tcCmp => rfl

/-- A unit command ends as its body does in `Uninit`; the lock answers an error in a session (rule R79). -/
theorem unitCommand_ends {body : State → State} (hunit : isUnit i = true) (hbody : CommandEnd c i s (body s)) :
    CommandEnd c i s (unitCommand body s) := by
  by_cases huninit : s.sst = .uninit
  · rw [unitCommand_of_uninit huninit]
    exact hbody
  · rw [unitCommand_of_session huninit]
    exact .error _ s rfl (sstAfter_of_unit hunit).symm

/-- The three folding commands answer without a payload, seeded or not (rule R147). -/
theorem whenSeeded_writeAcc_ends (newAcc : Block → State → Block) (hunit : isUnit i = true)
    (hbare : answersWithPayload i = false) :
    CommandEnd c i s (whenSeeded (fun h s => writeAcc (newAcc h s) s) s) := by
  cases hseed : s.mulH with
  | none =>
    rw [whenSeeded_none hseed]
    exact .error _ s rfl (sstAfter_of_unit hunit).symm
  | some h =>
    rw [whenSeeded_some hseed]
    exact .done 0 { s with acc := newAcc h s } hbare rfl (sstAfter_of_unit hunit).symm

theorem ksKeyBody_ends (klen : Nat) : CommandEnd c (.ksKey klen) s (ksKeyBody p s) := by
  unfold ksKeyBody
  split
  · exact .done 0 _ rfl rfl rfl
  · exact .error _ s rfl rfl

/-- `KS.RUN` answers as many bytes as its payload has, which its `LEN` counts (rules R75, R178). -/
theorem ksRunBody_ends {len : Nat} (hp : p.length = len) : CommandEnd c (.ksRun len) s (ksRunBody c p s) := by
  unfold ksRunBody
  split
  · refine .bytes _ _ rfl (fun hfits => ?_) rfl rfl
    rw [ctrXor_length, hp]
    exact of_decide_eq_true hfits
  · exact .error _ s rfl rfl

theorem ksCtrBody_ends : CommandEnd c .ksCtr s (ksCtrBody s) := by
  unfold ksCtrBody
  split
  next ctr _ => exact .bytes (bytesOf 16 ctr) s rfl (fun _ => by simp) rfl rfl
  next => exact .error _ s rfl rfl

theorem pvOutBody_ends : CommandEnd c .pvOut s (pvOutBody s) :=
  .bytes (bytesOf 16 (rev s.acc)) s rfl (fun _ => by simp) rfl rfl

end

/-! ### Every command -/

/-- Every command with its payload ends in one of the three ways, from a state with the invariants. -/
theorem effect_ends (i : Instr) {p : List Byte} {s : State} (hinv : SessionInv Config.attached s)
    (hp : p.length = payloadLength i) : CommandEnd Config.attached i s (effect i p s) := by
  cases i with
  | init enc klen nlen alen => exact initBody_ends enc hp
  | aad len => exact aadBody_ends len
  | msg len => exact msgBody_ends len
  | osize pendingLen => exact osizeBody_ends pendingLen
  | final ocap => exact finalBody_ends ocap hinv
  | reset => exact resetBody_ends
  | pvSeed | pvClr | ksLoad | tcCmp => exact unitCommand_ends rfl (.done _ _ rfl rfl rfl)
  | pvBlk | pvSeq len | pvLen => exact unitCommand_ends rfl (whenSeeded_writeAcc_ends _ rfl rfl)
  | pvOut => exact unitCommand_ends rfl pvOutBody_ends
  | ksKey klen => exact unitCommand_ends rfl (ksKeyBody_ends klen)
  | ksRun len => exact unitCommand_ends rfl (ksRunBody_ends hp)
  | ksCtr => exact unitCommand_ends rfl ksCtrBody_ends

/-- A completing command ends so, seen from the state that has given up its payload. -/
theorem exec_ends {i : Instr} {s t : State} (hinv : SessionInv Config.attached s) (h : exec i s = .next t) :
    CommandEnd Config.attached i { s with payIn := s.payIn.drop (payloadLength i) } t := by
  obtain ⟨hlen, rfl⟩ := exec_eq_next.mp h
  exact effect_ends i (hinv.withPorts s.hostIn _ s.output) (by simpa using hlen)

/-- Settles O16: an error carries nothing, and the length of a payload fits `VAL`. -/
theorem commandAnswersOnce : Obligations.CommandAnswersOnce := by
  intro i s t hfits hinv hexec
  cases exec_ends hinv hexec with
  | error st u hout _ =>
    exact ⟨st, 0, [], congrArg (· ++ response st 0 []) hout, fun _ => ⟨rfl, rfl⟩, fun _ => rfl, fun _ => rfl⟩
  | done val u hbare hout _ =>
    refine ⟨.ok, BitVec.ofNat 56 val, [], congrArg (· ++ response .ok _ []) hout, fun hne => absurd rfl hne,
      fun _ => rfl, fun hbytes => ?_⟩
    exact absurd (hbare.symm.trans hbytes) Bool.false_ne_true
  | bytes payload u hbytes hlen hout _ =>
    refine ⟨.ok, BitVec.ofNat 56 payload.length, payload, congrArg (· ++ response .ok _ payload) hout,
      fun hne => absurd rfl hne, fun hbare => ?_, fun _ => (Nat.mod_eq_of_lt (hlen hfits)).symm⟩
    exact absurd (hbare.symm.trans hbytes) Bool.false_ne_true

/-- Settles O24: the table is `sstAfter`, row by row. -/
theorem sessionTransitions : Obligations.SessionTransitions := fun _ _ hinv =>
  ⟨fun _ _ _ _ h => (exec_ends hinv h).sst_eq, fun _ h => (exec_ends hinv h).sst_eq,
    fun _ h => (exec_ends hinv h).sst_eq, fun _ h => (exec_ends hinv h).sst_eq,
    fun _ h => (exec_ends hinv h).sst_eq, fun h => (exec_ends hinv h).sst_eq,
    fun _ hunit h => (exec_ends hinv h).sst_eq.trans (sstAfter_of_unit hunit)⟩

end Sys2Proof.Machine

/-! PROOFS. The session commands (`40_session.md` rules R101 to R107) and the round trip of a whole session
(`44_tag_finalize.md` rule R197). What each session command answers in each of its cases is said once; the round trip is
then the keystream pass being its own inverse, with one tag on both sides. -/

namespace Sys2Proof.Machine

section
variable {c : Config} {s : State} {p : List Byte}

/-! ## What each session command answers -/

/-- The key, the nonce and the initial data of an `INIT` payload, each counted by its own field (rule R74). -/
theorem initBytes_of_append (key nonce a0 : List Byte) :
    initKeyBytes key.length (key ++ nonce ++ a0) = key ∧
      initNonceBytes key.length nonce.length (key ++ nonce ++ a0) = nonce ∧
      initAadBytes key.length nonce.length (key ++ nonce ++ a0) = a0 := by
  refine ⟨?key, ?nonce, ?data⟩
  case key => simp [initKeyBytes]
  case nonce => simp [initNonceBytes]
  case data => rw [initAadBytes, ← List.length_append, List.drop_left]

/-- The effect of an `INIT` whose lengths are valid (rules R102, R103). -/
theorem initBody_of_fits {key nonce a0 : List Byte} {master : Key} (enc : Bool)
    (hkey : keyOperand key = some master) (hnonce : nonce.length = 12) (hfit : a0.length ≤ c.aadMax) :
    initBody c enc key.length nonce.length a0.length (key ++ nonce ++ a0) s =
      respondOk 0 [] (startSession c enc master (ofBytes 96 nonce) a0 s) := by
  obtain ⟨hkeyBytes, hnonceBytes, haadBytes⟩ := initBytes_of_append key nonce a0
  simp only [initBody, hkeyBytes, hnonceBytes, haadBytes, hkey]
  exact if_pos ⟨hnonce, hfit⟩

/-- The effect of an `INIT` with an invalid length (rule R102). -/
theorem initBody_of_wrong_lengths {klen nlen alen : Nat} (enc : Bool) (hp : p.length = klen + nlen + alen)
    (hwrong : ¬ ((klen = 16 ∨ klen = 32) ∧ nlen = 12 ∧ alen ≤ c.aadMax)) :
    initBody c enc klen nlen alen p s = raise .configurationError s := by
  unfold initBody
  split
  next master hkey =>
    have hklen : klen = 16 ∨ klen = 32 := initKeyBytes_length hp ▸ length_of_keyOperand hkey
    exact if_neg fun hlens => hwrong ⟨hklen, hlens⟩
  next => rfl

/-- The effect of `AAD` in `Ready` without room (rule R104). -/
theorem aadBody_of_no_room (hready : s.sst = .ready) (hfull : c.aadMax < s.aadBuf.length + p.length) :
    aadBody c p s = raise .stateError s := by
  rw [aadBody, if_pos hready, if_neg (Nat.not_le.mpr hfull)]

/-- The effect of `AAD` outside `Ready` (rule R104). -/
theorem aadBody_outside_ready (hnot : s.sst ≠ .ready) : aadBody c p s = raise .stateError s := if_neg hnot

/-- The effect of `MSG` in `Ready` without room (rule R105). -/
theorem msgBody_of_no_room (hready : s.sst = .ready) (hfull : msgBufLimit c s.mode < s.msgBuf.length + p.length) :
    msgBody c p s = raise .stateError s := by
  rw [msgBody, if_pos hready, if_neg (Nat.not_le.mpr hfull)]

/-- The effect of `MSG` outside `Ready` (rule R105). -/
theorem msgBody_outside_ready (hnot : s.sst ≠ .ready) : msgBody c p s = raise .stateError s := if_neg hnot

/-- The room of the message buffer once the mode is known (rules R8, R62). -/
theorem msgBufLimit_some (c : Config) (mode : Mode) :
    msgBufLimit c (some mode) = if mode = .encrypt then c.msgMax else c.msgMax + 16 := by
  simp only [msgBufLimit, Option.some.injEq]

/-- The effect of `OSIZE` in a session (rule R106). -/
theorem osizeBody_of_session {mode : Mode} (pendingLen : Nat) (hsession : s.sst ≠ .uninit)
    (hmode : s.mode = some mode) :
    osizeBody pendingLen s = respondOk (outputSize mode (pendingLen + s.msgBuf.length)) [] s := by
  rw [osizeBody, if_neg hsession, hmode]

/-- A key operand of either length makes a key (rules R6, R7). -/
theorem exists_keyOperand {bs : List Byte} (h : bs.length = 16 ∨ bs.length = 32) : ∃ k, keyOperand bs = some k :=
  h.elim (fun hlen => ⟨_, keyOperand_16 hlen⟩) fun hlen => ⟨_, keyOperand_32 hlen⟩

/-- `INIT` with its payload on the port and valid lengths starts a session (rules R102, R103). -/
theorem exec_init_of_fits {key nonce a0 rest : List Byte} {master : Key} (enc : Bool)
    (hp : s.payIn = key ++ nonce ++ a0 ++ rest) (hkey : keyOperand key = some master) (hnonce : nonce.length = 12)
    (hfit : a0.length ≤ Config.attached.aadMax) :
    exec (.init enc key.length nonce.length a0.length) s =
      .next (respondOk 0 []
        (startSession Config.attached enc master (ofBytes 96 nonce) a0 { s with payIn := rest })) := by
  calc exec (.init enc key.length nonce.length a0.length) s
    _ = .next (initBody Config.attached enc key.length nonce.length a0.length (key ++ nonce ++ a0)
          { s with payIn := rest }) := command_of_append _ hp (by simp only [List.length_append])
    _ = _ := congrArg _ (initBody_of_fits enc hkey hnonce hfit)

/-- `OSIZE` takes no payload and always completes (rules R73, R106). -/
theorem exec_osize (pendingLen : Nat) (s : State) : exec (.osize pendingLen) s = .next (osizeBody pendingLen s) :=
  command_zero (fun _ => osizeBody pendingLen) s

/-- `RESET` takes no payload and always completes (rules R73, R107). -/
theorem exec_reset (s : State) : exec .reset s = .next (resetBody s) := command_zero (fun _ => resetBody) s

end

/-- Settles O18: each of the two key lengths makes the master key, and the session then starts. -/
theorem initStartsSession : Obligations.InitStartsSession := by
  intro s enc key nonce a0 rest master hp hnonce hfit hkey
  have hmaster : keyOperand key = some master := by
    obtain ⟨hlen, rfl⟩ | ⟨hlen, rfl⟩ := hkey
    · exact keyOperand_16 hlen
    · exact keyOperand_32 hlen
  rw [exec_init_of_fits enc hp hmaster hnonce hfit]
  rfl

/-- Settles O19: the frame takes the payload whatever the validation says, and the error touches nothing else. -/
theorem initRejectsWrongLengths : Obligations.InitRejectsWrongLengths := by
  intro s enc klen nlen alen hlen hwrong
  calc exec (.init enc klen nlen alen) s
    _ = .next (initBody Config.attached enc klen nlen alen (s.payIn.take (klen + nlen + alen))
          { s with payIn := s.payIn.drop (klen + nlen + alen) }) := command_of_le _ hlen
    _ = _ := congrArg _ (initBody_of_wrong_lengths enc (List.length_take_of_le hlen) hwrong)

/-- Settles O20: one case of `aadBody` per clause, in the frame of the payload. -/
theorem aadAppends : Obligations.AadAppends := by
  intro s data rest hp
  have hexec : exec (.aad data.length) s = .next (aadBody Config.attached data { s with payIn := rest }) :=
    command_of_append _ hp rfl
  rw [hexec]
  exact ⟨fun hready hfit => congrArg _ (aadBody_of_fits hready hfit),
    fun hready hfull => congrArg _ (aadBody_of_no_room hready hfull),
    fun hnot => congrArg _ (aadBody_outside_ready hnot)⟩

/-- Settles O21: one case of `msgBody` per clause, the limit being that of the mode. -/
theorem msgAppends : Obligations.MsgAppends := by
  intro s mode data rest lim hp hlim
  have hexec : exec (.msg data.length) s = .next (msgBody Config.attached data { s with payIn := rest }) :=
    command_of_append _ hp rfl
  have hlimit : s.mode = some mode → msgBufLimit Config.attached s.mode = lim := fun hmode => by
    rw [hmode, msgBufLimit_some, hlim]
  rw [hexec]
  exact ⟨fun hready hmode hfit => congrArg _ (msgBody_of_fits hready (hfit.trans_eq (hlimit hmode).symm)),
    fun hready hmode hfull => congrArg _ (msgBody_of_no_room hready ((hlimit hmode).trans_lt hfull)),
    fun hnot => congrArg _ (msgBody_outside_ready hnot)⟩

/-- Settles O22: `outputSize` in each mode; decrypting, natural subtraction stops at 0 as the rule asks. -/
theorem osizeAnswersOutputSize : Obligations.OsizeAnswersOutputSize := by
  intro s p
  rw [exec_osize]
  refine ⟨?encrypt, ?decrypt, ?short, fun huninit => congrArg _ (if_pos huninit)⟩
  case encrypt =>
    intro hsession hmode
    rw [osizeBody_of_session p hsession hmode]
    rfl
  case decrypt =>
    intro hsession hmode _
    rw [osizeBody_of_session p hsession hmode]
    rfl
  case short =>
    intro hsession hmode hshort
    have hzero : outputSize .decrypt (p + s.msgBuf.length) = 0 := Nat.sub_eq_zero_of_le hshort.le
    rw [osizeBody_of_session p hsession hmode, hzero]
    rfl

/-- Settles O23: the two branches of `resetBody`. -/
theorem resetReopensSession : Obligations.ResetReopensSession := by
  intro s
  rw [exec_reset]
  exact ⟨fun hsession => congrArg _ (if_neg hsession), fun huninit => congrArg _ (if_pos huninit)⟩

/-! ## The keystream pass is its own inverse -/

/-- A first piece of 16 bytes, or a shorter one that nothing follows, is cut off whole (rule R172). -/
theorem take_drop_of_piece {x r : List Byte} (hx : x.length ≤ 16) (hr : x.length < 16 → r = []) :
    (x ++ r).take 16 = x ∧ (x ++ r).drop 16 = r := by
  obtain hlt | heq := Nat.lt_or_eq_of_le hx
  · simp [hr hlt, hx]
  · exact ⟨List.take_left' heq, List.drop_left' heq⟩

/-- The pass over the pieces of what the pass answered gives the sequence back: each piece meets the same keystream
block again (rule R172). -/
theorem ctrXorPieces_ctrXorPieces (c : Config) (k : Key) (n : Nat) (s : List Byte) (ctr : Block)
    (hlen : s.length ≤ 16 * n) :
    (ctrXorPieces c k (pieces n (ctrXorPieces c k (pieces n s) ctr).1) ctr).1 = s := by
  induction n generalizing s ctr with
  | zero => exact (List.eq_nil_of_length_eq_zero (by omega)).symm
  | succ n ih =>
    have hdrop : (s.drop 16).length ≤ 16 * n := by rw [List.length_drop]; omega
    have hrest : (ctrXorPieces c k (pieces n (s.drop 16)) (inc32 ctr)).1.length = (s.drop 16).length := by
      rw [ctrXorPieces_length c k _ _ fun _ => length_of_mem_pieces, pieces_flatten n _ hdrop]
    obtain ⟨htake, hdropped⟩ := take_drop_of_piece
      (x := xorBytes (s.take 16) (bytesOf 16 (c.cipher k ctr)))
      (r := (ctrXorPieces c k (pieces n (s.drop 16)) (inc32 ctr)).1) (by simp)
      (fun hshort => List.eq_nil_of_length_eq_zero (by
        simp only [xorBytes_length, List.length_take, bytesOf_length] at hshort
        rw [hrest, List.length_drop]
        omega))
    simp only [pieces, ctrXorPieces, htake, hdropped, ih _ _ hdrop]
    rw [xorBytes_xorBytes _ _ (by simp), List.take_append_drop]

/-- The keystream pass from one counter, run twice, gives its input back (rule R172). -/
theorem ctrXor_ctrXor (c : Config) (k : Key) (ctr : Block) (data : List Byte) :
    (ctrXor c k ctr (ctrXor c k ctr data).1).1 = data := by
  have hlen : (ctrXor c k ctr data).1.length = data.length := ctrXor_length c k ctr data
  rw [ctrXor, piecesOf, hlen]
  exact ctrXorPieces_ctrXorPieces c k _ data ctr (by unfold blockCount; omega)

/-! ## `FINAL` with the registers it reads -/

/-- What an encrypting `FINAL` answers with: ciphertext, then tag (rules R193, R194). -/
def sealedMessage (c : Config) (k : Key) (h : Block) (nonce : Nonce) (aad msg : List Byte) : List Byte :=
  (ctrXor c k (top1 (tagGen c k h nonce aad msg)) msg).1 ++ bytesOf 16 (tagGen c k h nonce aad msg)

@[simp] theorem sealedMessage_length (c : Config) (k : Key) (h : Block) (nonce : Nonce) (aad msg : List Byte) :
    (sealedMessage c k h nonce aad msg).length = msg.length + 16 := by
  rw [sealedMessage, List.length_append, ctrXor_length, bytesOf_length]

section
variable {c : Config} {s : State} {nonce : Nonce} {k : Key} {h : Block} {ocap : Nat}

/-- An encrypting `FINAL` with its registers loaded and enough room encrypts (rules R193, R198). -/
theorem finalBody_of_encrypt (hready : s.sst = .ready) (hmode : s.mode = some .encrypt)
    (hnonce : s.nonce = some nonce) (hckey : s.ckey = some k) (hmulH : s.mulH = some h)
    (hroom : s.msgBuf.length + 16 ≤ ocap) : finalBody c ocap s = finalEncrypt c k h nonce s := by
  have hfits : finalCapacityError .encrypt ocap s.msgBuf.length = false :=
    decide_eq_false (Nat.not_lt.mpr hroom)
  simp [finalBody, finalReady, hready, hmode, hnonce, hckey, hmulH, hfits]

/-- A decrypting `FINAL` with its registers loaded, a whole tag and enough room decrypts (rules R193, R198). -/
theorem finalBody_of_decrypt (hready : s.sst = .ready) (hmode : s.mode = some .decrypt)
    (hnonce : s.nonce = some nonce) (hckey : s.ckey = some k) (hmulH : s.mulH = some h)
    (hlen : 16 ≤ s.msgBuf.length) (hroom : s.msgBuf.length - 16 ≤ ocap) :
    finalBody c ocap s = finalDecrypt c k h nonce s := by
  have hfits : finalCapacityError .decrypt ocap s.msgBuf.length = false := by
    simp only [finalCapacityError, Bool.or_eq_false_iff, decide_eq_false_iff_not, Nat.not_lt]
    exact ⟨hlen, hroom⟩
  simp [finalBody, finalReady, hready, hmode, hnonce, hckey, hmulH, hfits]

/-- What an encrypting `FINAL` delivers (rules R193, R194). -/
theorem finalEncrypt_output :
    (finalEncrypt c k h nonce s).output = s.output ++
      response .ok (BitVec.ofNat 56 (s.msgBuf.length + 16)) (sealedMessage c k h nonce s.aadBuf s.msgBuf) := by
  rw [← sealedMessage_length c k h nonce s.aadBuf s.msgBuf]
  rfl

/-- Decrypting a sealed message under the same key, nonce and associated data releases the message: the supplied tag is
the one that was generated, so the pass undoes the encryption and the recomputed tag is the same (rule R197). -/
theorem finalDecrypt_of_sealed {msg : List Byte} (hmsg : s.msgBuf = sealedMessage c k h nonce s.aadBuf msg) :
    finalDecrypt c k h nonce s = respondOk msg.length msg (decryptDone c k h s) := by
  have hcut : s.msgBuf.length - 16 = (ctrXor c k (top1 (tagGen c k h nonce s.aadBuf msg)) msg).1.length := by
    rw [hmsg, sealedMessage_length, ctrXor_length, Nat.add_sub_cancel]
  have htag : suppliedTag s = tagGen c k h nonce s.aadBuf msg := by
    rw [suppliedTag, hcut, hmsg, sealedMessage, List.drop_left, ofBytes_bytesOf_block]
  have hcand : (candidate c k s).1 = msg := by
    rw [candidate, htag, hcut, hmsg, sealedMessage, List.take_left, ctrXor_ctrXor]
  rw [finalDecrypt_of_tag_eq (by rw [hcand, htag]), hcand]

end

/-! ## A session up to its `FINAL` -/

/-- A session after `INIT` and `MSG`: what `FINAL` reads (rules R103, R105, R190). -/
structure SessionLoaded (c : Config) (enc : Bool) (master : Key) (nonce : Nonce) (a0 data : List Byte) (s : State) :
    Prop where
  sst : s.sst = .ready
  mode : s.mode = some (modeOf enc)
  ckey : s.ckey = some (deriveEncKey c master nonce)
  mulH : s.mulH = some (seedH (deriveMacKey c master nonce))
  aadBuf : s.aadBuf = a0
  msgBuf : s.msgBuf = data
  nonce : s.nonce = some nonce

/-- `INIT` and one `MSG` load a session, from every state, with two bare `OK` responses (rules R103, R105). -/
theorem exec_init_msg {s : State} {key nonce a0 data rest : List Byte} {master : Key} (enc : Bool)
    (hp : s.payIn = key ++ nonce ++ a0 ++ data ++ rest) (hkey : keyOperand key = some master)
    (hnonce : nonce.length = 12) (hfit : a0.length ≤ Config.attached.aadMax)
    (hroom : data.length ≤ msgBufLimit Config.attached (some (modeOf enc))) :
    ∃ s₁ s₂ : State,
      exec (.init enc key.length nonce.length a0.length) s = .next s₁ ∧ exec (.msg data.length) s₁ = .next s₂ ∧
      SessionLoaded Config.attached enc master (ofBytes 96 nonce) a0 data s₂ ∧
      s₂.output = s.output ++ response .ok 0 [] ++ response .ok 0 [] := by
  refine ⟨_, _, exec_init_of_fits enc (hp.trans (List.append_assoc ..)) hkey hnonce hfit,
    exec_msg_of_fits (rest := rest) rfl rfl ?room, ?loaded, rfl⟩
  case room => simpa using hroom
  case loaded => exact ⟨rfl, rfl, rfl, rfl, rfl, rfl, rfl⟩

/-- The message a session seals under a master key, a nonce and its initial associated data (rule R193). -/
def sessionSealed (c : Config) (master : Key) (nonce : Nonce) (a0 msg : List Byte) : List Byte :=
  sealedMessage c (deriveEncKey c master nonce) (seedH (deriveMacKey c master nonce)) nonce a0 msg

section
variable {c : Config} {s : State} {master : Key} {nonce : Nonce} {a0 msg : List Byte} {ocap : Nat}

/-- `FINAL` of a loaded encrypting session delivers the sealed message (rules R193, R194). -/
theorem SessionLoaded.final_encrypt (hs : SessionLoaded c true master nonce a0 msg s)
    (hroom : msg.length + 16 ≤ ocap) :
    (finalBody c ocap s).output = s.output ++
      response .ok (BitVec.ofNat 56 (msg.length + 16)) (sessionSealed c master nonce a0 msg) := by
  obtain ⟨hsst, hmode, hckey, hmulH, rfl, rfl, hnonce⟩ := hs
  rw [finalBody_of_encrypt hsst hmode hnonce hckey hmulH hroom, finalEncrypt_output, sessionSealed]

/-- `FINAL` of a decrypting session loaded with what an encrypting one sealed delivers the message (rule R197). -/
theorem SessionLoaded.final_decrypt (hs : SessionLoaded c false master nonce a0 (sessionSealed c master nonce a0 msg) s)
    (hroom : msg.length ≤ ocap) :
    (finalBody c ocap s).output = s.output ++ response .ok (BitVec.ofNat 56 msg.length) msg := by
  obtain ⟨hsst, hmode, hckey, hmulH, rfl, hmsg, hnonce⟩ := hs
  have hlen : s.msgBuf.length = msg.length + 16 := by rw [hmsg, sessionSealed, sealedMessage_length]
  rw [finalBody_of_decrypt hsst hmode hnonce hckey hmulH (by omega) (by omega), finalDecrypt_of_sealed hmsg]
  rfl

end

/-- Settles O30: both sessions derive the same keys, and the sealed message of the first fits the message buffer of the
second, whose `FINAL` opens it. -/
theorem sessionRoundTrip : Obligations.SessionRoundTrip := by
  intro s key nonce a0 msg rest ocap ocap' hklen hnlen hfit hmax hroom hroom' hp
  obtain ⟨master, hkey⟩ := exists_keyOperand hklen
  have houtLen : (sessionSealed Config.attached master (ofBytes 96 nonce) a0 msg).length = msg.length + 16 :=
    sealedMessage_length ..
  obtain ⟨s₁, s₂, hinit, hmsg, hloaded, hout⟩ := exec_init_msg true hp hkey hnlen hfit hmax
  refine ⟨s₁, s₂, _, _, hinit, hmsg, exec_final ocap s₂, houtLen, hout ▸ hloaded.final_encrypt hroom, ?decrypt⟩
  case decrypt =>
    intro u rest' hp'
    obtain ⟨u₁, u₂, hinit', hmsg', hloaded', hout'⟩ := exec_init_msg false hp' hkey hnlen hfit
      (houtLen.trans_le (Nat.add_le_add_right hmax 16))
    exact ⟨u₁, u₂, _, hinit', hmsg', exec_final ocap' u₂, hout' ▸ hloaded'.final_decrypt hroom'⟩

end Sys2Proof.Machine

/-! PROOFS. Key derivation (`41_key_derivation.md` rules R130, R131): byte 0 of the scratch block counts the
encipherments, and a derived key is the bytes of its halves one after another. -/

namespace Sys2Proof.Machine

/-! ## Bytes of joined values -/

/-- The bytes of a value put before a value of `n` bytes come first (rule R11). -/
theorem bytesOf_append (m n : Nat) {w : Nat} (x : BitVec w) (y : BitVec (8 * n)) :
    bytesOf (m + n) (x ++ y) = bytesOf m x ++ bytesOf n y := by
  apply List.ext_getElem (by simp)
  intro i hi _
  have hi : i < m + n := by simpa using hi
  rw [bytesOf_getElem]
  by_cases hm : i < m
  · have hplace : 8 * (m + n - 1 - i) - 8 * n = 8 * (m - 1 - i) := by omega
    rw [List.getElem_append_left (by simpa using hm), bytesOf_getElem,
      BitVec.extractLsb'_append_eq_of_le (by omega), hplace]
  · have hplace : m + n - 1 - i = n - 1 - (i - m) := by omega
    rw [List.getElem_append_right (by simpa using hm), bytesOf_getElem, bytesOf_length,
      BitVec.extractLsb'_append_eq_of_add_le (by omega), hplace]

/-- The first 8 bytes of a block are the bytes of its upper half (rule R11). -/
theorem bytesOf16_take_8 (b : Block) : (bytesOf 16 b).take 8 = bytesOf 8 (b.extractLsb' 64 64) := by
  have hsplit : bytesOf 16 b = bytesOf 8 (b.extractLsb' 64 64) ++ bytesOf 8 (b.extractLsb' 0 64) := by
    rw [← bytesOf_append 8 8, BitVec.extractLsb'_append_extractLsb']
  rw [hsplit, List.take_left' (bytesOf_length ..)]

/-! ## The scratch block -/

/-- The increment reaches byte 0 alone (rule R131). -/
theorem bumpByte0_append (b : Byte) (rest : BitVec 120) : bumpByte0 (b ++ rest) = (b + 1#8) ++ rest := by
  rw [bumpByte0, BitVec.extractLsb'_append_eq_left, BitVec.extractLsb'_append_eq_right, BitVec.ofNat_eq_ofNat]

/-- The scratch block of the `i`-th encipherment is `i ‖ 0^3 ‖ nonce`, the count modulo `2^8` (rules R130, R131). -/
theorem scratch_eq (nonce : Nonce) (i : Nat) : scratch nonce i = BitVec.ofNat 8 i ++ 0#24 ++ nonce := by
  rw [BitVec.append_assoc, BitVec.cast_eq]
  induction i with
  | zero => rw [scratch, ← BitVec.zero_append_zero (v := 8) (w := 24), BitVec.append_assoc, BitVec.cast_eq]
  | succ i ih => rw [scratch, ih, bumpByte0_append, BitVec.ofNat_add]

/-! ## The derived keys -/

/-- The bytes of a half are the first 8 bytes of the cipher of its scratch block (rule R130). -/
theorem bytesOf_kdfHalf (c : Config) (master : Key) (nonce : Nonce) (i : Nat) :
    bytesOf 8 (kdfHalf c master nonce i) =
      (bytesOf 16 (c.cipher master (BitVec.ofNat 8 i ++ 0#24 ++ nonce))).take 8 := by
  rw [bytesOf16_take_8, kdfHalf, scratch_eq]

/-- Settles O55: each key joins halves of 8 bytes, so its bytes are theirs in order. -/
theorem keyDerivationSlices : Obligations.KeyDerivationSlices := by
  intro c master nonce half hhalf
  have hbytes : ∀ i, bytesOf 8 (kdfHalf c master nonce i) = half i := fun i =>
    (bytesOf_kdfHalf c master nonce i).trans (hhalf i).symm
  have hjoin : ∀ i j, bytesOf 16 (kdfHalf c master nonce i ++ kdfHalf c master nonce j) = half i ++ half j :=
    fun i j => by rw [bytesOf_append 8 8, hbytes, hbytes]
  refine ⟨hjoin 0 1, ?key16, ?key32⟩
  case key16 =>
    rintro k rfl
    exact ⟨_, rfl, hjoin 2 3⟩
  case key32 =>
    rintro k rfl
    refine ⟨_, rfl, ?_⟩
    rw [bytesOf_append 24 8, bytesOf_append 16 8, hjoin, hbytes, hbytes]

end Sys2Proof.Machine

/-! PROOFS. The functions of unit PVA, byte by byte and bit by bit (`42_polyval.md` rules R140, R141, R144, R146). -/

namespace Sys2Proof.Machine

/-! ## `REV` -/

/-- `REV(b)[i] = b[15 - i]` (rule R140). -/
theorem byteAt_rev (b : Block) (i : Nat) (hi : i < 16) : byteAt (rev b) i = byteAt b (15 - i) := by
  apply BitVec.eq_of_getLsbD_eq
  intro j hj
  have hdiv : (8 * (15 - i) + j) / 8 = 15 - i := by omega
  have hmod : (8 * (15 - i) + j) % 8 = j := by omega
  rw [getLsbD_byteAt _ _ _ hj, getLsbD_byteAt _ _ _ hj, getLsbD_rev _ _ (by omega), hdiv, hmod]

/-- Twice reversed is as before (rule R140). -/
theorem rev_rev (b : Block) : rev (rev b) = b := by
  apply block_ext
  intro i hi
  rw [byteAt_rev _ _ hi, byteAt_rev _ _ (by omega), Nat.sub_sub_self (by omega)]

/-- `REV` is linear over XOR (rule R140). -/
theorem rev_xor (a b : Block) : rev (a ^^^ b) = rev a ^^^ rev b := by
  apply block_ext
  intro i hi
  simp only [byteAt_xor, byteAt_rev _ _ hi]

/-- Settles O44: the two laws of `REV`. -/
theorem revReversesBytes : Obligations.RevReversesBytes := fun b => ⟨byteAt_rev b, rev_rev b⟩

/-! ## `MULX` -/

/-- The bit that falls off byte `i` in a shift to the right. -/
theorem byteAt_and_one_eq_one_iff (v : Block) (i : Nat) : byteAt v i &&& 1 = 1 ↔ v.getLsbD (8 * (15 - i)) = true := by
  have hbit : (byteAt v i).getLsbD 0 = v.getLsbD (8 * (15 - i)) := getLsbD_byteAt v i 0 (by omega)
  rw [← hbit, BitVec.ofNat_eq_ofNat, BitVec.and_one_eq_setWidth_ofBool_getLsbD]
  cases (byteAt v i).getLsbD 0 <;> decide

/-- Byte 0 of a block shifted right by one bit takes in a 0 (rule R141). -/
theorem byteAt_ushiftRight_one_zero (v : Block) : byteAt (v >>> 1) 0 = byteAt v 0 >>> 1 := by
  apply BitVec.eq_of_getLsbD_eq
  intro j hj
  rw [getLsbD_byteAt _ _ _ hj, BitVec.getLsbD_ushiftRight, BitVec.getLsbD_ushiftRight]
  by_cases hlast : j = 7
  · subst hlast
    simp [byteAt]
  · rw [getLsbD_byteAt _ _ _ (by omega), Nat.add_left_comm]

/-- Every later byte takes in the bit that falls off the byte before (rule R141). -/
theorem byteAt_ushiftRight_one (v : Block) (i : Nat) (hlow : 1 ≤ i) (hi : i < 16) :
    byteAt (v >>> 1) i = (byteAt v i >>> 1) ||| (if byteAt v (i - 1) &&& 1 = 1 then 0x80 else 0) := by
  apply BitVec.eq_of_getLsbD_eq
  intro j hj
  simp only [byteAt_and_one_eq_one_iff]
  rw [getLsbD_byteAt _ _ _ hj, BitVec.getLsbD_ushiftRight, BitVec.getLsbD_or, BitVec.getLsbD_ushiftRight]
  by_cases hlast : j = 7
  · subst hlast
    have hplace : 1 + (8 * (15 - i) + 7) = 8 * (15 - (i - 1)) := by omega
    rw [hplace]
    cases v.getLsbD (8 * (15 - (i - 1))) <;> simp
  · have hcarry : (if v.getLsbD (8 * (15 - (i - 1))) = true then 0x80 else 0 : Byte).getLsbD j = false := by
      have hmask : ∀ j < 7, (0x80 : Byte).getLsbD j = false := by decide
      split
      · exact hmask j (by omega)
      · simp
    rw [hcarry, Bool.or_false, getLsbD_byteAt _ _ _ (by omega), Nat.add_left_comm]

/-- Byte 0 of `MULX`: that of the shifted block, and the reduction when a bit falls off byte 15 (rule R141). -/
theorem byteAt_mulX_zero (v : Block) :
    byteAt (mulX v) 0 = byteAt (v >>> 1) 0 ^^^ (if byteAt v 15 &&& 1 = 1 then 0xE1 else 0) := by
  have hreduction : byteAt 0xE1000000000000000000000000000000#128 0 = 0xE1 := by decide
  have hfall : byteAt v 15 &&& 1 = 1 ↔ v.getLsbD 0 = true := byteAt_and_one_eq_one_iff v 15
  rw [mulX_eq_xor, byteAt_xor]
  by_cases hbit : v.getLsbD 0 = true
  · rw [if_pos hbit, if_pos (hfall.mpr hbit), hreduction]
  · rw [if_neg hbit, if_neg (mt hfall.mp hbit)]
    rfl

/-- The reduction of `MULX` reaches no byte but byte 0 (rule R141). -/
theorem byteAt_mulX_of_pos (v : Block) (i : Nat) (hlow : 1 ≤ i) (hi : i < 16) :
    byteAt (mulX v) i = byteAt (v >>> 1) i := by
  have hreduction : ∀ j < 16, 1 ≤ j → byteAt 0xE1000000000000000000000000000000#128 j = 0 := by decide
  rw [mulX_eq_xor, byteAt_xor]
  split
  · rw [hreduction i hi hlow]
    exact BitVec.xor_zero
  · simp [byteAt]

/-- Settles O45: the shift byte by byte, and the reduction in byte 0 alone. -/
theorem mulXBytewise : Obligations.MulXBytewise := by
  intro v
  refine ⟨?first, fun i hlow hi => ?later⟩
  case first => rw [byteAt_mulX_zero, byteAt_ushiftRight_one_zero]
  case later => rw [byteAt_mulX_of_pos v i hlow hi, byteAt_ushiftRight_one v i hlow hi]

/-! ## `BLOCKS` and `ABSORB` -/

/-- `BLOCKS(s)` has `ceil(len(s) / 16)` blocks (rule R144). -/
theorem blocks_length (s : List Byte) : (blocks s).length = (s.length + 15) / 16 := by
  rw [blocks, List.length_map, piecesOf, pieces_length, blockCount]

/-- A byte of `PAD16(t)`: the byte of `t`, or 0 behind its end (rule R144). -/
theorem byteAt_pad16 (t : List Byte) (r : Nat) (ht : t.length ≤ 16) (hr : r < 16) :
    byteAt (pad16 t) r = t[r]?.getD 0 := by
  have hbyte := getElem?_eq_byteAt_ofBytes (t ++ List.replicate (16 - t.length) 0) r (by simp; omega) hr
  rw [List.getElem?_append] at hbyte
  apply Option.some.inj
  rw [pad16, ← hbyte]
  split
  next hin => rw [List.getElem?_eq_getElem hin, Option.getD_some]
  next hout =>
    rw [List.getElem?_replicate_of_lt (by omega), List.getElem?_eq_none (by omega), Option.getD_none]

/-- Block `j` of `BLOCKS(s)` is the padding of its piece (rule R144). -/
theorem blocks_getElem? (s : List Byte) (j : Nat) (hj : j < (s.length + 15) / 16) :
    (blocks s)[j]? = some (pad16 ((s.drop (16 * j)).take 16)) := by
  rw [← blockCount] at hj
  rw [blocks, List.getElem?_map, piecesOf, pieces_getElem? _ _ _ hj, Option.map_some]

/-- Byte `r` of block `j` of `BLOCKS(s)`: the byte `s[16 j + r]`, or 0 behind the end of `s` (rule R144). -/
theorem byteAt_blocks {s : List Byte} {j r : Nat} {b : Block} (hb : (blocks s)[j]? = some b) (hr : r < 16) :
    byteAt b r = s[16 * j + r]?.getD 0 := by
  obtain ⟨hj, -⟩ := List.getElem?_eq_some_iff.mp hb
  rw [blocks_getElem? s j (by rwa [blocks_length] at hj)] at hb
  obtain rfl := Option.some.inj hb
  rw [byteAt_pad16 _ r (List.length_take_le ..) hr, List.getElem?_take_of_lt hr, List.getElem?_drop]

/-- `BLOCKS` of two sequences joined after whole blocks (rule R146). -/
theorem blocks_append {s₁ s₂ : List Byte} (hwhole : s₁.length % 16 = 0) :
    blocks (s₁ ++ s₂) = blocks s₁ ++ blocks s₂ := by
  have hcount : blockCount (s₁ ++ s₂).length = blockCount s₁.length + blockCount s₂.length := by
    rw [List.length_append]
    unfold blockCount
    omega
  rw [blocks, piecesOf, hcount, pieces_append _ _ _ _ (by unfold blockCount; omega), List.map_append]
  rfl

/-- Settles O49: the blocks are counted, read byte by byte, and joined after whole blocks. -/
theorem absorbSplitsAtBlocks : Obligations.AbsorbSplitsAtBlocks := by
  intro c h acc s₁ s₂
  refine ⟨blocks_length s₂, fun j r b hb hr => ?bytes, fun hwhole => ?split⟩
  case bytes =>
    rw [byteAt_blocks hb hr]
    split
    next hin => rw [List.getElem?_eq_getElem hin, Option.getD_some]
    next hout => rw [List.getElem?_eq_none (by omega), Option.getD_none]
  case split => rw [absorb, blocks_append hwhole, List.foldl_append, absorb, absorb]

end Sys2Proof.Machine

/-! PROOFS. The reference multiplier and the direct form of POLYVAL (`42_polyval.md` rules R143, R156, R157). A map that
is linear over XOR and commutes with `MULX` passes through the loop of `GMUL`: the field laws follow from that one
lemma. The direct form steps the other way, by the inverse of `MULX`. -/

namespace Sys2Proof.Machine

/-- Taking a block or zero, by a bit, is linear in the bit. -/
theorem ite_bit_xor (r : Block) (x y : Bool) :
    (if (x ^^ y) = true then r else 0#128) = (if x = true then r else 0#128) ^^^ (if y = true then r else 0#128) := by
  cases x <;> cases y <;> simp

/-- The conditional sum of a loop round, as one XOR. -/
theorem ite_xor_eq (z v : Block) (x : Bool) :
    (if x = true then z ^^^ v else z) = z ^^^ (if x = true then v else 0#128) := by
  cases x <;> simp

/-! ## The loop of `GMUL` -/

/-- The loop is linear in the multiplicand and the sum (rule R143). -/
theorem gmulLoop_xor (n : Nat) (x v w z y : Block) :
    gmulLoop n x (v ^^^ w) (z ^^^ y) = gmulLoop n x v z ^^^ gmulLoop n x w y := by
  induction n generalizing x v w z y with
  | zero => rfl
  | succ n ih =>
    simp only [gmulLoop, mulX_xor, ← ih]
    congr 1
    split <;> ac_rfl

/-- A linear map that commutes with `MULX` passes through the loop (rule R143). -/
theorem map_gmulLoop {f : Block → Block} (hxor : ∀ a b, f (a ^^^ b) = f a ^^^ f b)
    (hmulX : ∀ v, f (mulX v) = mulX (f v)) (n : Nat) (x v z : Block) :
    f (gmulLoop n x v z) = gmulLoop n x (f v) (f z) := by
  induction n generalizing x v z with
  | zero => rfl
  | succ n ih => rw [gmulLoop, gmulLoop, ih, hmulX, apply_ite f, hxor]

/-- A single 1 moves one place towards the end of the block, and nothing falls off (rule R141). -/
theorem mulX_twoPow_succ (n : Nat) (hn : n + 1 < 128) : mulX (BitVec.twoPow 128 (n + 1)) = BitVec.twoPow 128 n := by
  rw [mulX, BitVec.getLsbD_twoPow, if_neg (by simp)]
  apply BitVec.eq_of_getLsbD_eq
  intro i hi
  rw [BitVec.getLsbD_ushiftRight, BitVec.getLsbD_twoPow, BitVec.getLsbD_twoPow, Nat.add_comm 1 i]
  simp only [Nat.add_right_cancel_iff, hn, Nat.lt_of_succ_lt hn]

/-- The first `n + 1` bits of a block, moved to its end, are its first bit and the `n` bits behind it. -/
theorem ushiftRight_eq_xor (n : Nat) (hn : n < 128) (x : Block) :
    x >>> (127 - n) = (if x.getLsbD 127 = true then BitVec.twoPow 128 n else 0#128) ^^^ ((x <<< 1) >>> (128 - n)) := by
  apply BitVec.eq_of_getLsbD_eq
  intro i hi
  have hfirst : (if x.getLsbD 127 = true then BitVec.twoPow 128 n else 0#128).getLsbD i =
      (decide (n = i) && x.getLsbD 127) := by
    cases x.getLsbD 127 <;> simp [BitVec.getLsbD_twoPow, hn]
  rw [BitVec.getLsbD_xor, hfirst]
  simp only [BitVec.getLsbD_ushiftRight, BitVec.getLsbD_shiftLeft]
  obtain hlt | rfl | hgt := Nat.lt_trichotomy i n
  · have hplace : 128 - n + i - 1 = 127 - n + i := by omega
    simp [hplace, hlt.ne', show 128 - n + i < 128 by omega, show 128 - n ≠ 0 by omega]
  · simp [show 127 - i + i = 127 by omega, show ¬ 128 - i + i < 128 by omega]
  · simp [hgt.ne, show ¬ 128 - n + i < 128 by omega, BitVec.getLsbD_of_ge x (127 - n + i) (by omega)]

/-- A multiplication by the one: the last `n + 1` rounds copy the bits of `x` that are left (rule R143). -/
theorem gmulLoop_twoPow (n : Nat) (hn : n < 128) (x z : Block) :
    gmulLoop (n + 1) x (BitVec.twoPow 128 n) z = z ^^^ (x >>> (127 - n)) := by
  induction n generalizing x z with
  | zero =>
    rw [gmulLoop, gmulLoop, ite_xor_eq, ushiftRight_eq_xor 0 hn, BitVec.ushiftRight_eq_zero le_rfl, BitVec.xor_zero]
  | succ n ih =>
    rw [gmulLoop, mulX_twoPow_succ n hn, ih (by omega), ite_xor_eq, BitVec.xor_assoc, ushiftRight_eq_xor (n + 1) hn,
      Nat.add_sub_add_right 127 1 n]

/-! ## The laws of `GMUL` -/

/-- `GMUL` is linear in its second argument (rule R143). -/
theorem gmul_xor_right (x h g : Block) : gmul x (h ^^^ g) = gmul x h ^^^ gmul x g :=
  gmulLoop_xor 128 x h g 0 0

/-- A multiplication by x may be done before or after (rule R143). -/
theorem gmul_mulX_right (x h : Block) : gmul x (mulX h) = mulX (gmul x h) :=
  (map_gmulLoop mulX_xor (fun _ => rfl) 128 x h 0).symm

/-- Zero times a block (rule R143). -/
theorem gmul_zero (x : Block) : gmul x 0 = 0 := by
  have h := gmul_xor_right x 0 0
  rwa [BitVec.xor_self, BitVec.xor_self] at h

/-- The one of `GMUL` is the block whose first bit alone is 1 (rule R143). -/
theorem gmul_one (x : Block) : gmul x 0x80000000000000000000000000000000 = x := by
  have hone : (0x80000000000000000000000000000000 : Block) = BitVec.twoPow 128 127 := by decide
  rw [gmul, hone, gmulLoop_twoPow 127 (by omega)]
  simp

/-- Two multiplications may be done in either order: `GMUL(x, ·)` passes through the loop of the other (rule R143). -/
theorem gmul_left_comm (x y h : Block) : gmul x (gmul y h) = gmul y (gmul x h) := by
  have hpass := map_gmulLoop (gmul_xor_right x) (gmul_mulX_right x) 128 y h 0
  rwa [gmul_zero] at hpass

/-- `GMUL` is commutative: two multiplications of the one (rule R143). -/
theorem gmul_comm (x h : Block) : gmul x h = gmul h x := by
  have hone := gmul_left_comm x h 0x80000000000000000000000000000000
  rwa [gmul_one, gmul_one] at hone

/-- `GMUL` is linear in its first argument (rule R143). -/
theorem gmul_xor_left (x y h : Block) : gmul (x ^^^ y) h = gmul x h ^^^ gmul y h := by
  rw [gmul_comm, gmul_xor_right, gmul_comm h x, gmul_comm h y]

/-- Settles O46: the laws, in the order of the statement. -/
theorem gmulFieldLaws : Obligations.GmulFieldLaws :=
  ⟨gmul_comm, gmul_xor_left, gmul_xor_right, gmul_zero, gmul_one⟩

/-! ## Linearity of the hash -/

/-- One fold with the reference multiplier is linear in the accumulator and the block together (rules R145, R157). -/
theorem fold_xor {c : Config} (hmul : c.gfmul = gmul) (h a₁ a₂ b₁ b₂ : Block) :
    fold c h (a₁ ^^^ a₂) (b₁ ^^^ b₂) = fold c h a₁ b₁ ^^^ fold c h a₂ b₂ := by
  have hsum : a₁ ^^^ a₂ ^^^ (rev b₁ ^^^ rev b₂) = (a₁ ^^^ rev b₁) ^^^ (a₂ ^^^ rev b₂) := by ac_rfl
  simp only [fold, hmul, rev_xor, hsum, gmul_xor_left]

/-- Settles O48: by induction on the two lists side by side, each fold being linear. -/
theorem referenceHashIsLinear : Obligations.ReferenceHashIsLinear := by
  intro c h a₁ a₂ bs₁ bs₂ hmul hlen
  induction bs₁ generalizing bs₂ a₁ a₂ with
  | nil =>
    obtain rfl := List.eq_nil_of_length_eq_zero hlen.symm
    rfl
  | cons b₁ bs₁ ih =>
    cases bs₂ with
    | nil => exact absurd hlen (Nat.succ_ne_zero _)
    | cons b₂ bs₂ =>
      rw [List.zipWith_cons_cons, List.foldl_cons, List.foldl_cons, List.foldl_cons, fold_xor hmul]
      exact ih _ _ _ (Nat.succ.inj hlen)

/-! ## The direct form -/

theorem polyMulX_eq_xor (p : Block) :
    polyMulX p = (p <<< 1) ^^^ (if p.getLsbD 127 = true then 0xC2000000000000000000000000000001#128 else 0#128) := by
  unfold polyMulX
  split <;> simp

/-- Multiplication by x is linear over XOR (rule R156). -/
theorem polyMulX_xor (p q : Block) : polyMulX (p ^^^ q) = polyMulX p ^^^ polyMulX q := by
  rw [polyMulX_eq_xor, polyMulX_eq_xor, polyMulX_eq_xor, BitVec.getLsbD_xor, ite_bit_xor,
    BitVec.shiftLeft_xor_distrib]
  ac_rfl

theorem polyMulX_zero : polyMulX 0#128 = 0#128 := by decide

/-- Shifted right and back, a block has lost its last bit. -/
theorem ushiftRight_shiftLeft_one_xor (v : Block) :
    v >>> 1 <<< 1 ^^^ (if v.getLsbD 0 = true then 1#128 else 0#128) = v := by
  apply BitVec.eq_of_getLsbD_eq
  intro i hi
  have hlast : (if v.getLsbD 0 = true then 1#128 else 0#128).getLsbD i = (decide (i = 0) && v.getLsbD 0) := by
    cases v.getLsbD 0 <;> simp
  rw [BitVec.getLsbD_xor, hlast]
  cases i with
  | zero => simp
  | succ i => simp [hi, Nat.add_comm 1 i]

/-- The step of the direct form undoes `MULX`: the one reads a block from its last bit on, the other from its first
(rules R141, R156). -/
theorem polyMulX_mulX (v : Block) : polyMulX (mulX v) = v := by
  have hreduction : polyMulX 0xE1000000000000000000000000000000#128 = 1#128 := by decide
  have hshifted : polyMulX (v >>> 1) = v >>> 1 <<< 1 := by simp [polyMulX]
  rw [mulX_eq_xor, polyMulX_xor, hshifted, apply_ite polyMulX, hreduction, polyMulX_zero]
  exact ushiftRight_shiftLeft_one_xor v

/-- The loop of the direct form passes its step to the multiplicand (rule R156). -/
theorem polyMulX_polyMulLoop (n : Nat) (a b : Block) :
    polyMulX (polyMulLoop n a b) = polyMulLoop n a (polyMulX b) := by
  induction n generalizing b with
  | zero => exact polyMulX_zero
  | succ n ih =>
    rw [polyMulLoop, polyMulLoop, polyMulX_xor, ih, apply_ite polyMulX, BitVec.ofNat_eq_ofNat, polyMulX_zero]

/-- The loop of the direct form taken from its other end: the highest coefficient stands apart, and the others move up
(rule R156). -/
theorem polyMulLoop_succ (n : Nat) (hn : n < 128) (a b : Block) :
    polyMulLoop (n + 1) a b =
      polyMulLoop n (a <<< 1) b ^^^ (if a.getLsbD 127 = true then polyMulX^[n] b else 0#128) := by
  induction n generalizing b with
  | zero => rfl
  | succ n ih =>
    have hbit : (a <<< 1).getLsbD (127 - n) = a.getLsbD (127 - (n + 1)) := by
      rw [BitVec.getLsbD_shiftLeft, decide_eq_true (by omega), decide_eq_false (by omega), Nat.sub_sub]
      rfl
    rw [polyMulLoop, ih (by omega), polyMulLoop, hbit, Function.iterate_succ_apply]
    ac_rfl

/-- `polyMulX^[n]` is linear over XOR (rule R156). -/
theorem iterate_polyMulX_xor (n : Nat) (p q : Block) :
    polyMulX^[n] (p ^^^ q) = polyMulX^[n] p ^^^ polyMulX^[n] q :=
  Function.Semiconj₂.iterate polyMulX_xor n p q

/-- `n` rounds of `GMUL` from `MULX(w)`, taken `n` steps back, are `n` rounds of the direct form from `w` (rules R143,
R156). -/
theorem iterate_polyMulX_gmulLoop (n : Nat) (hn : n ≤ 128) (x w z : Block) :
    polyMulX^[n] (gmulLoop n x (mulX w) z) = polyMulLoop n x w ^^^ polyMulX^[n] z := by
  induction n generalizing x w z with
  | zero => exact BitVec.zero_xor.symm
  | succ n ih =>
    have hround : polyMulX^[n + 1] (if x.getLsbD 127 = true then z ^^^ mulX w else z) =
        polyMulX^[n + 1] z ^^^ (if x.getLsbD 127 = true then polyMulX^[n] w else 0#128) := by
      rw [ite_xor_eq, iterate_polyMulX_xor, apply_ite polyMulX^[n + 1], Function.iterate_fixed polyMulX_zero,
        Function.iterate_succ_apply polyMulX n (mulX w), polyMulX_mulX]
    rw [gmulLoop, Function.iterate_succ_apply', ih (by omega), polyMulX_xor, polyMulX_polyMulLoop, polyMulX_mulX,
      ← Function.iterate_succ_apply' polyMulX, hround, polyMulLoop_succ n (by omega)]
    ac_rfl

/-- Multiplied 128 times by x, `GMUL(x, MULX(w))` is the field product of the direct form (rule R156). -/
theorem iterate_polyMulX_gmul (x w : Block) : polyMulX^[128] (gmul x (mulX w)) = polyMul x w := by
  have hzero : polyMulX^[128] 0 = 0 := Function.iterate_fixed polyMulX_zero 128
  rw [gmul, iterate_polyMulX_gmulLoop 128 le_rfl, hzero, polyMul]
  exact BitVec.xor_zero

/-- Settles O47: the seed is `MULX(REV(k))`, so the fold is the product of the lemma above. -/
theorem referenceFoldIsPolyvalDot : Obligations.ReferenceFoldIsPolyvalDot := by
  intro c k acc b hmul
  rw [fold, hmul, seedH, iterate_polyMulX_gmul]

end Sys2Proof.Machine

/-! PROOFS. Unit PVA (`42_polyval.md` section 2): what its six commands do in `Uninit` and under the lock. The three
commands that fold differ only in the new accumulator, so they are run once, over any new accumulator. -/

namespace Sys2Proof.Machine

/-! ## A unit command with its payload on the port -/

section
variable {i : Instr} {s : State} {p rest : List Byte}

/-- The lock decides: the command's body in `Uninit`, `StateError` in a session, with the payload taken either way
(rules R73, R79). -/
theorem exec_unitCommand {body : List Byte → State → State} (heffect : effect i = fun p => unitCommand (body p))
    (hp : s.payIn = p ++ rest) (hlen : p.length = payloadLength i) :
    (s.sst = .uninit → exec i s = .next (body p { s with payIn := rest })) ∧
    (s.sst ≠ .uninit → exec i s = .next (raise .stateError { s with payIn := rest })) := by
  have hexec : exec i s = .next (unitCommand (body p) { s with payIn := rest }) := by
    rw [exec_eq_command, command_of_append _ hp hlen, heffect]
  rw [hexec]
  exact ⟨fun huninit => congrArg _ (unitCommand_of_uninit huninit),
    fun hsession => congrArg _ (unitCommand_of_session hsession)⟩

/-- A unit command without payload (rules R73, R79). -/
theorem exec_unitCommand_bare {body : State → State} (heffect : effect i = fun _ => unitCommand body)
    (hlen : payloadLength i = 0) :
    (s.sst = .uninit → exec i s = .next (body s)) ∧
    (s.sst ≠ .uninit → exec i s = .next (raise .stateError s)) :=
  exec_unitCommand (body := fun _ => body) (p := []) heffect rfl hlen.symm

/-- A command that folds: it writes the new accumulator when seeded, and answers `StateError` when not seeded or
locked (rules R79, R147). -/
theorem exec_foldCommand (newAcc : List Byte → Block → Block → Block)
    (heffect : effect i = fun p => unitCommand (whenSeeded fun h s => writeAcc (newAcc p h s.acc) s))
    (hp : s.payIn = p ++ rest) (hlen : p.length = payloadLength i) :
    (∀ h, s.sst = .uninit → s.mulH = some h →
      exec i s = .next
        { s with payIn := rest, acc := newAcc p h s.acc, output := s.output ++ response .ok 0 [] }) ∧
    (s.sst = .uninit → s.mulH = none →
      exec i s = .next { s with payIn := rest, output := s.output ++ response .stateError 0 [] }) ∧
    (s.sst ≠ .uninit →
      exec i s = .next { s with payIn := rest, output := s.output ++ response .stateError 0 [] }) := by
  obtain ⟨hopen, hlocked⟩ := exec_unitCommand heffect hp hlen
  exact ⟨fun _ huninit hseed => (hopen huninit).trans (congrArg _ (whenSeeded_some hseed)),
    fun huninit hseed => (hopen huninit).trans (congrArg _ (whenSeeded_none hseed)), hlocked⟩

end

/-! ## Operands -/

/-- A payload of 16 bytes is its own block operand (rule R75). -/
theorem blockOperand_of_length {p : List Byte} (h : p.length = 16) : blockOperand p = ofBytes 128 p := by
  rw [blockOperand, List.take_of_length_le h.le]

/-- The two counts of a `PV.LEN` payload are read back as they were written (rules R13, R75). -/
theorem countOperands_of_leBytes {a m : Nat} (ha : a < 2 ^ 64) (hm : m < 2 ^ 64) :
    aadCountOperand (leBytes 8 a ++ leBytes 8 m) = a ∧ msgCountOperand (leBytes 8 a ++ leBytes 8 m) = m := by
  have hread : ∀ v < 2 ^ 64, leNat (leBytes 8 v) = v := fun v hv => (leNat_leBytes 8 v).trans (Nat.mod_eq_of_lt hv)
  constructor
  · rw [aadCountOperand, List.take_left' (leBytes_length ..), hread a ha]
  · rw [msgCountOperand, List.drop_left' (leBytes_length ..), List.take_of_length_le (leBytes_length ..).le,
      hread m hm]

/-! ## The six commands -/

/-- Settles O33: the body of `PV.SEED` behind the lock, its operand the whole payload. -/
theorem pvSeedSeedsMultiplier : Obligations.PvSeedSeedsMultiplier := by
  intro s k rest hp hlen
  rw [← blockOperand_of_length hlen]
  exact exec_unitCommand (body := pvSeedBody) rfl hp hlen

/-- Settles O34: writing the zero accumulator, behind the lock. -/
theorem pvClrClearsAccumulator : Obligations.PvClrClearsAccumulator :=
  fun _ => exec_unitCommand_bare (body := writeAcc 0) rfl rfl

/-- Settles O35: a folding command whose new accumulator is one fold of its operand. -/
theorem pvBlkFoldsBlock : Obligations.PvBlkFoldsBlock := by
  intro s b rest hp hlen
  rw [← blockOperand_of_length hlen]
  exact exec_foldCommand (fun p h acc => fold Config.attached h acc (blockOperand p)) rfl hp hlen

/-- Settles O36: a folding command whose new accumulator absorbs its payload. -/
theorem pvSeqAbsorbsSequence : Obligations.PvSeqAbsorbsSequence :=
  fun _ _ _ hp => exec_foldCommand (fun p h acc => absorb Config.attached h acc p) rfl hp rfl

/-- Settles O37: a folding command whose new accumulator is one fold of the length block of its two counts. -/
theorem pvLenFoldsLengthBlock : Obligations.PvLenFoldsLengthBlock := by
  intro s a m rest ha hm hp
  obtain ⟨haad, hmsg⟩ := countOperands_of_leBytes ha hm
  have hcases := exec_foldCommand (i := .pvLen)
    (fun p h acc => fold Config.attached h acc (lenBlock (aadCountOperand p) (msgCountOperand p))) rfl hp
    (by simp [payloadLength])
  rw [haad, hmsg] at hcases
  exact hcases

/-- Settles O38: the body of `PV.OUT` behind the lock. -/
theorem pvOutReadsAccumulator : Obligations.PvOutReadsAccumulator :=
  fun _ => exec_unitCommand_bare (body := pvOutBody) rfl rfl

end Sys2Proof.Machine

/-! PROOFS. A completing `FINAL` (`44_tag_finalize.md` rules R190, R193 to R196): the whole state it leaves. -/

namespace Sys2Proof.Machine

section
variable {c : Config} {s : State} {nonce : Nonce} {k : Key} {h : Block}

/-- An encrypting `FINAL`, as a whole: the sealed message is answered and the session is finished (rules R194,
R195). -/
theorem finalEncrypt_eq :
    finalEncrypt c k h nonce s =
      respondOk (s.msgBuf.length + 16) (sealedMessage c k h nonce s.aadBuf s.msgBuf)
        (finishSession { s with
          acc := polyvalAcc c h s.aadBuf s.msgBuf
          ctr := some (ctrXor c k (top1 (tagGen c k h nonce s.aadBuf s.msgBuf)) s.msgBuf).2 }) := by
  rw [← sealedMessage_length c k h nonce s.aadBuf s.msgBuf]
  rfl

variable {body supplied : List Byte}

/-- The last 16 bytes of the message buffer are the supplied tag (rule R196). -/
theorem suppliedTag_of_append (hmsg : s.msgBuf = body ++ supplied) (hlen : supplied.length = 16) :
    suppliedTag s = ofBytes 128 supplied := by
  rw [suppliedTag, hmsg, List.length_append, hlen, Nat.add_sub_cancel, List.drop_left]

/-- What stands before the supplied tag is run through the keystream of that tag (rule R196). -/
theorem candidate_of_append (hmsg : s.msgBuf = body ++ supplied) (hlen : supplied.length = 16) :
    candidate c k s = ctrXor c k (top1 (ofBytes 128 supplied)) body := by
  rw [candidate, suppliedTag_of_append hmsg hlen, hmsg, List.length_append, hlen, Nat.add_sub_cancel,
    List.take_left]

end

/-- Settles O25: the answer of `finalEncrypt`, its tag written out. -/
theorem finalEncrypts : Obligations.FinalEncrypts := by
  rintro s ocap nonce k h p tag ct hready hmode hnonce hckey hmulH hroom rfl htag rfl
  rw [← tagGen_eq_cipher] at htag
  subst htag
  have hfinal : exec (.final ocap) s = .next (finalEncrypt Config.attached k h nonce s) := by
    rw [exec_final, finalBody_of_encrypt hready hmode hnonce hckey hmulH hroom]
  exact ⟨_, _, hfinal.trans (congrArg _ finalEncrypt_eq)⟩

/-- Settles O26: the two answers of `finalDecrypt`, chosen by the tag of the candidate. -/
theorem finalDecrypts : Obligations.FinalDecrypts := by
  rintro s ocap nonce k h p body supplied cand hready hmode hnonce hckey hmulH hmsg hlen hroom hcand rfl
  have hwhole : s.msgBuf.length = body.length + 16 := by rw [hmsg, List.length_append, hlen]
  have hfinal : exec (.final ocap) s = .next (finalDecrypt Config.attached k h nonce s) := by
    rw [exec_final, finalBody_of_decrypt hready hmode hnonce hckey hmulH (by omega) (by omega)]
  have hcandidate : candidate Config.attached k s = cand := (candidate_of_append hmsg hlen).trans hcand.symm
  have hcandLen : cand.1.length = body.length := by rw [hcand, ctrXor_length]
  refine ⟨(decryptDone Config.attached k h s).acc, (decryptDone Config.attached k h s).ctr, ?_⟩
  rw [hfinal, ← tagGen_eq_cipher, ← suppliedTag_of_append hmsg hlen, ← hcandLen, ← hcandidate]
  split
  next htag => rw [finalDecrypt_of_tag_eq htag]; rfl
  next htag => rw [finalDecrypt_of_tag_ne htag]; rfl

end Sys2Proof.Machine

/-! PROOFS. Unit KSG (`43_keystream.md` rules R170 to R173, R175 to R179): `TOP1`, `INC32` and the keystream pass byte
by byte, then what its four commands do in `Uninit` and under the lock. -/

namespace Sys2Proof.Machine

/-! ## `TOP1` -/

@[simp] theorem byteAt_or (a b : Block) (i : Nat) : byteAt (a ||| b) i = byteAt a i ||| byteAt b i :=
  BitVec.extractLsb'_or

/-- Settles O51: the mask that `TOP1` ORs in has no bit outside byte 15. -/
theorem top1ForcesTopBit : Obligations.Top1ForcesTopBit := by
  have hmask : ∀ j < 15, byteAt 0x80#128 j = 0#8 := by decide
  have hlast : byteAt 0x80#128 15 = 0x80 := by decide
  intro t
  refine ⟨fun i hi => ?kept, ?forced⟩
  case kept => rw [top1, byteAt_or, hmask i hi, BitVec.or_zero]
  case forced => rw [top1, byteAt_or, hlast]

/-! ## `INC32` -/

/-- The bytes of the stepped counter: the little-endian form of the stepped number, then the bytes that stay (rule
R171). -/
theorem bytesOf_inc32 (ctr : Block) :
    bytesOf 16 (inc32 ctr) = leBytes 4 (leNat ((bytesOf 16 ctr).take 4) + 1) ++ (bytesOf 16 ctr).drop 4 :=
  bytesOf_ofBytes_block _ (by simp)

/-- Settles O52: the first four bytes are a little-endian form, which reads back modulo `2^32`; the rest is the old
counter's. -/
theorem inc32WrapsInLowFourBytes : Obligations.Inc32WrapsInLowFourBytes := by
  intro ctr
  rw [bytesOf_inc32, List.take_left' (leBytes_length ..), List.drop_left' (leBytes_length ..)]
  exact ⟨leNat_leBytes 4 _, rfl⟩

/-! ## The keystream pass -/

/-- A byte of two sequences XORed, where the second reaches (rule R13). -/
theorem xorBytes_getElem? (a b : List Byte) (i : Nat) {y : Byte} (hy : b[i]? = some y) :
    (xorBytes a b)[i]? = a[i]?.map (· ^^^ y) := by
  rw [xorBytes, List.getElem?_zipWith, hy]
  cases a[i]? <;> rfl

/-- Byte `16 j + r` of the pass over the pieces of a sequence: piece `j` meets the cipher of the counter after `j` steps
(rule R172). -/
theorem ctrXorPieces_getElem? (c : Config) (k : Key) (n : Nat) (s : List Byte) (ctr : Block) (j r : Nat) (hr : r < 16)
    (hin : 16 * j + r < s.length) (hn : s.length ≤ 16 * n) :
    (ctrXorPieces c k (pieces n s) ctr).1[16 * j + r]? =
      s[16 * j + r]?.map (· ^^^ byteAt (c.cipher k (inc32^[j] ctr)) r) := by
  induction n generalizing s ctr j with
  | zero => omega
  | succ n ih =>
    have hfirst : (xorBytes (s.take 16) (bytesOf 16 (c.cipher k ctr))).length = min 16 s.length := by simp
    rw [pieces, ctrXorPieces]
    cases j with
    | zero =>
      rw [Nat.mul_zero, Nat.zero_add, List.getElem?_append_left (by omega),
        xorBytes_getElem? _ _ _ (bytesOf16_getElem? _ r hr), List.getElem?_take_of_lt hr]
      rfl
    | succ j =>
      have hplace : 16 * (j + 1) + r = 16 + (16 * j + r) := by omega
      have hfull : (xorBytes (s.take 16) (bytesOf 16 (c.cipher k ctr))).length = 16 := by omega
      rw [hplace, List.getElem?_append_right (by omega), hfull, Nat.add_sub_cancel_left,
        ih _ _ _ (by rw [List.length_drop]; omega) (by rw [List.length_drop]; omega), List.getElem?_drop,
        Function.iterate_succ_apply]

/-- Settles O53: the pass over the pieces of the data, of which there are `ceil(L / 16)`. -/
theorem ctrXorBytes : Obligations.CtrXorBytes := by
  intro c k ctr data
  refine ⟨ctrXor_length c k ctr data, ?counter, fun j r hr hin => ?bytes⟩
  case counter => rw [ctrXor, ctrXorPieces_counter, piecesOf, pieces_length, blockCount]
  case bytes => exact ctrXorPieces_getElem? c k _ data ctr j r hr hin (by unfold blockCount; omega)

/-- Settles O54: the keystream does not depend on the data, so each byte meets the same keystream byte twice. -/
theorem ctrXorTwiceReturnsInput : Obligations.CtrXorTwiceReturnsInput := ctrXor_ctrXor

/-! ## What the bodies do -/

section
variable {s : State} {p : List Byte}

/-- `KS.KEY` with a key's number of bytes keys the cipher (rule R176). -/
theorem ksKeyBody_of_some {k : Key} (hk : keyOperand p = some k) :
    ksKeyBody p s = respondOk 0 [] { s with ckey := some k } := by
  rw [ksKeyBody, hk]

/-- `KS.KEY` with any other number of bytes is a wrong configuration (rule R176). -/
theorem ksKeyBody_of_none (hnone : keyOperand p = none) : ksKeyBody p s = raise .configurationError s := by
  rw [ksKeyBody, hnone]

/-- `KS.CTR` answers a counter that has been written (rule R179). -/
theorem ksCtrBody_of_some {ctr : Block} (hctr : s.ctr = some ctr) :
    ksCtrBody s = respondOk 16 (bytesOf 16 ctr) s := by
  rw [ksCtrBody, hctr]

/-- `KS.CTR` needs a counter that has been written (rule R175). -/
theorem ksCtrBody_of_none (hnone : s.ctr = none) : ksCtrBody s = raise .stateError s := by
  rw [ksCtrBody, hnone]

end

/-! ## The four commands -/

/-- Settles O39: behind the lock, the key operand decides by its length. -/
theorem ksKeyKeysCipher : Obligations.KsKeyKeysCipher := by
  intro s key rest hp
  obtain ⟨hopen, hlocked⟩ := exec_unitCommand (i := .ksKey key.length) (body := ksKeyBody) rfl hp rfl
  refine ⟨fun huninit h16 => ?key16, fun huninit h32 => ?key32, fun huninit hne16 hne32 => ?other, hlocked⟩
  case key16 => exact (hopen huninit).trans (congrArg _ (ksKeyBody_of_some (keyOperand_16 h16)))
  case key32 => exact (hopen huninit).trans (congrArg _ (ksKeyBody_of_some (keyOperand_32 h32)))
  case other => exact (hopen huninit).trans (congrArg _ (ksKeyBody_of_none (keyOperand_eq_none.mpr ⟨hne16, hne32⟩)))

/-- Settles O40: the body of `KS.LOAD` behind the lock, its operand the whole payload. -/
theorem ksLoadLoadsCounter : Obligations.KsLoadLoadsCounter := by
  intro s t rest hp hlen
  rw [← blockOperand_of_length hlen]
  exact exec_unitCommand (body := ksLoadBody) rfl hp hlen

/-- Settles O41: behind the lock, the pass needs both registers; its answer is as long as its input. -/
theorem ksRunEncipherStream : Obligations.KsRunEncipherStream := by
  intro s data rest hp
  obtain ⟨hopen, hlocked⟩ :=
    exec_unitCommand (i := .ksRun data.length) (body := ksRunBody Config.attached) rfl hp rfl
  refine ⟨fun k ctr huninit hk hctr => ?loaded, fun huninit hnone => ?unloaded, hlocked⟩
  case loaded =>
    rw [hopen huninit, ksRunBody_of_some (s := { s with payIn := rest }) hk hctr, ctrXor_length]
    rfl
  case unloaded => exact (hopen huninit).trans (congrArg _ (ksRunBody_of_none hnone))

/-- Settles O42: behind the lock, the counter decides. -/
theorem ksCtrReadsCounter : Obligations.KsCtrReadsCounter := by
  intro s
  obtain ⟨hopen, hlocked⟩ := exec_unitCommand_bare (i := .ksCtr) (s := s) (body := ksCtrBody) rfl rfl
  exact ⟨fun _ huninit hctr => (hopen huninit).trans (congrArg _ (ksCtrBody_of_some hctr)),
    fun huninit hnone => (hopen huninit).trans (congrArg _ (ksCtrBody_of_none hnone)), hlocked⟩

end Sys2Proof.Machine

/-! PROOFS. Unit TCMP and a `FINAL` that computes no tag (`44_tag_finalize.md` rules R191 to R193, R195, R198): the
comparator tells two tags apart, and the two checks of `FINAL` that come before any computation. -/

namespace Sys2Proof.Machine

/-! ## The comparator -/

/-- A block tells two sequences of 16 bytes apart (rule R11). -/
theorem ofBytes_block_eq_iff {a b : List Byte} (ha : a.length = 16) (hb : b.length = 16) :
    ofBytes 128 a = ofBytes 128 b ↔ a = b := by
  refine ⟨fun heq => ?_, congrArg _⟩
  rw [← bytesOf_ofBytes_block a ha, heq, bytesOf_ofBytes_block b hb]

/-- The two halves of a `TC.CMP` payload are its two tags (rule R75). -/
theorem tagOperands_of_append {a b : List Byte} (ha : a.length = 16) (hb : b.length = 16) :
    firstTagOperand (a ++ b) = ofBytes 128 a ∧ secondTagOperand (a ++ b) = ofBytes 128 b := by
  constructor
  · rw [firstTagOperand, List.take_left' ha]
  · rw [secondTagOperand, List.drop_left' ha, List.take_of_length_le hb.le]

/-- `TC.CMP` answers whether its two tags are equal (rules R191, R192). -/
theorem tcCmpBody_of_append {a b : List Byte} (ha : a.length = 16) (hb : b.length = 16) (s : State) :
    tcCmpBody (a ++ b) s = respond .ok (if a = b then 1 else 0) [] s := by
  obtain ⟨hfirst, hsecond⟩ := tagOperands_of_append ha hb
  simp only [tcCmpBody, hfirst, hsecond, ctEq_iff, ofBytes_block_eq_iff ha hb]
  split <;> rfl

/-- Settles O43: the body of `TC.CMP` behind the lock, its operands the two halves of the payload. -/
theorem tcCmpComparesTags : Obligations.TcCmpComparesTags := by
  intro s a b rest hp ha hb
  have hlen : (a ++ b).length = payloadLength .tcCmp := by rw [List.length_append, ha, hb]; rfl
  obtain ⟨hopen, hlocked⟩ := exec_unitCommand (body := tcCmpBody) rfl hp hlen
  exact ⟨fun huninit => (hopen huninit).trans (congrArg _ (tcCmpBody_of_append ha hb _)), hlocked⟩

/-! ## The checks of `FINAL` -/

section
variable {c : Config} {s : State} {ocap len : Nat}

theorem finalCapacityError_encrypt : finalCapacityError .encrypt ocap len = true ↔ ocap < len + 16 :=
  decide_eq_true_iff

theorem finalCapacityError_decrypt :
    finalCapacityError .decrypt ocap len = true ↔ len < 16 ∨ ocap < len - 16 := by
  rw [finalCapacityError, Bool.or_eq_true, decide_eq_true_iff, decide_eq_true_iff]

/-- A failed length check reads no key and no buffer byte: it only finishes the session (rules R195, R198). -/
theorem finalBody_of_capacityError {mode : Mode} (hready : s.sst = .ready) (hmode : s.mode = some mode)
    (hshort : finalCapacityError mode ocap s.msgBuf.length = true) :
    finalBody c ocap s = raise .capacityError (finishSession s) := by
  rw [finalBody, if_pos hready, finalReady, hmode]
  exact if_pos hshort

/-- The state check comes first and finishes nothing (rule R193; conflict C7). -/
theorem finalBody_outside_ready (hnot : s.sst ≠ .ready) : finalBody c ocap s = raise .stateError s := if_neg hnot

end

/-- Settles O27: each of the three cases fails a length check of its mode. -/
theorem finalCapacityErrors : Obligations.FinalCapacityErrors := by
  intro s ocap hready hcases
  have hshort : ∃ mode, s.mode = some mode ∧ finalCapacityError mode ocap s.msgBuf.length = true := by
    obtain ⟨hmode, hroom⟩ | ⟨hmode, htag⟩ | ⟨hmode, -, hroom⟩ := hcases
    · exact ⟨_, hmode, finalCapacityError_encrypt.mpr hroom⟩
    · exact ⟨_, hmode, finalCapacityError_decrypt.mpr (.inl htag)⟩
    · exact ⟨_, hmode, finalCapacityError_decrypt.mpr (.inr hroom)⟩
  obtain ⟨mode, hmode, hfails⟩ := hshort
  exact (exec_final ocap s).trans (congrArg _ (finalBody_of_capacityError hready hmode hfails))

/-- Settles O28: the state check fails before anything else. -/
theorem finalOutsideReadyChangesNothing : Obligations.FinalOutsideReadyChangesNothing :=
  fun s ocap hnot => (exec_final ocap s).trans (congrArg _ (finalBody_outside_ready hnot))

end Sys2Proof.Machine

/-! PROOFS. The idle block (`60_exceptions.md` section 3, rule R237, with the model's choice of assumption log 5). -/

namespace Sys2Proof.Machine

/-- Settles O7: with no event to take, the step answers the state it was given. -/
theorem idleBlockHoldsState : Obligations.IdleBlockHoldsState := by
  intro s hidle
  simp only [step, nextEvent_of_nil hidle]

end Sys2Proof.Machine
